-- ==== Sys2Proof/Word.lean ====
section
/-! DEFINITION. The words of the block (00_scope.md rule R10): unsigned bit vectors, bit 0 least significant,
a binary literal written most significant bit first (R12); and the controller state's three names (10_state.md R21). -/

namespace Sys2Proof

/-- One byte: the block itself has none (20_memory.md R54); only the packed dispatch word is handed over as one. -/
abbrev Byte := BitVec 8

/-- The dispatch word `DISP` of 30_encoding.md R65: `start`, two bits of state code, `term`. -/
abbrev DispatchWord := BitVec 4

/-- `EncoderState`, the "enumeration {Idle, Accumulating, Presenting}" of 10_state.md R21. -/
inductive EncoderState where
  /-- No `start` has been seen since reset. -/
  | idle
  /-- An encode is in flight. -/
  | accumulating
  /-- The latest encode completed: its codeword is in `output` and `done` is 1. -/
  | presenting
  deriving DecidableEq, Repr

end Sys2Proof
end

