-- ==== Sys2Proof/Config.lean ====
section
/-! DEFINITION. The construction parameters of one encoder (00_scope.md R6, R7), fixed for its lifetime
(20_memory.md R42). No rule fixes their values: every statement about the model is for all of them. -/

namespace Sys2Proof

/-- The configuration `(k, n, G)` of 00_scope.md R6 with the constraints of R7. A row is an `n`-bit value by its type
(R7 b), `k ≤ n` is not required (R7 c), and `k ≥ 2`, `n ≥ 1` are the spec's own choices D3 and D4 (log 6).
`hasResetOp` is the open parameter `HAS_RESET_OP` of decision D9, absent by default (log 10). -/
structure Config where
  /-- Message length in bits = number of generator-matrix rows. -/
  k : Nat
  /-- Codeword width in bits. -/
  n : Nat
  /-- The generator matrix `G`: `k` rows of `n` bits, row 0 first. -/
  rows : Vector (BitVec n) k
  /-- `HAS_RESET_OP` of D9. -/
  hasResetOp : Bool := false
  two_le_k : 2 ≤ k
  one_le_n : 1 ≤ n
  deriving DecidableEq, Repr

namespace Config

/-- The value 0 of `counter`. -/
def zeroCounter (cfg : Config) : Fin cfg.k := ⟨0, by have := cfg.two_le_k; omega⟩

/-- The value `k-1` of `counter`, the end of the accumulation window. -/
def lastCounter (cfg : Config) : Fin cfg.k := ⟨cfg.k - 1, by have := cfg.two_le_k; omega⟩

/-- The source's own 3-row, 6-bit matrix (30_encoding.md R63): rows `100101`, `010111`, `001110`. DESIGN CHOICE (log 2):
it is the configuration of `State.reset`; no statement rests on it. -/
abbrev sourceExample : Config where
  k := 3
  n := 6
  rows := #v[0b100101#6, 0b010111#6, 0b001110#6]
  two_le_k := by decide
  one_le_n := by decide

end Config

end Sys2Proof
end

