-- ==== Sys2Proof/Syntax.lean ====
section
/-! DEFINITION. What stands in the place of instructions: the operations an edge performs (40_controller.md R80), one
constructor per row of spec/opcode_table.json, and the words the ports carry (30_encoding.md R60 to R62). -/

namespace Sys2Proof

/-- One row of the selection table (30_encoding.md R66) each. The fields are the bits of the dispatch word that the row
leaves open ("not examined"); the message of START is no field: it is sampled from `data_input` at the edge (R81). -/
inductive Instr where
  /-- START, `1sst` (R81). -/
  | start (state : EncoderState) (term : Bool)
  /-- ACCUM, `0010` (R82). -/
  | accum
  /-- PRESENT, `0011` (R83). -/
  | present
  /-- HOLD.I, `000t` (R85): HOLD in Idle. -/
  | holdIdle (term : Bool)
  /-- HOLD.P, `010t` (R85): HOLD in Presenting. -/
  | holdPresenting (term : Bool)
  /-- reserved__state_code_11, `011t` (R69). -/
  | reservedState (term : Bool)
  deriving DecidableEq, Repr

/-- The inputs of one edge (R60): `start` and the `k` bits of `data_input`. -/
structure Stimulus (k : Nat) where
  start : Bool
  dataInput : BitVec k
  deriving DecidableEq, Repr

/-- What `read_output` returns (R62): the codeword port and `done`. -/
structure Response (n : Nat) where
  codeword : BitVec n
  done : Bool
  deriving DecidableEq, Repr

end Sys2Proof
end

