-- ==== Sys2Proof/WellFormed.lean ====
section
/-! DEFINITION. Which operations an edge of the hardware can perform. -/

namespace Sys2Proof

/-- An operation is well formed when its state field is the code of a state: state code 11 "is not a state" (R69 a).
The other fields admit every value. -/
def Instr.wellFormed : Instr → Bool
  | .start _ _ => true
  | .accum => true
  | .present => true
  | .holdIdle _ => true
  | .holdPresenting _ => true
  | .reservedState _ => false

end Sys2Proof
end

