-- ==== Sys2Proof/Decode.lean ====
section
/-! DEFINITION. Decoding and encoding: the state code (30_encoding.md R64), the dispatch word (R65, R66), the stimulus
word (R61) and the response word (R62). -/

namespace Sys2Proof

/-- Why a word is no operation. -/
inductive DecodeError where
  /-- There is no byte to read a dispatch word from. -/
  | noWord
  /-- A byte whose upper four bits are not zero: a dispatch word has four bits (R65; log 13). -/
  | notADispatchWord
  /-- `111t`: `start = 1` with state code 11, which "is not a state" (R69 a; V40; log 8). -/
  | undefinedStateCode
  deriving DecidableEq, Repr

/-- The 2-bit code of a state (R64, D6). -/
def stateCode : EncoderState → BitVec 2
  | .idle => 0b00#2
  | .accumulating => 0b01#2
  | .presenting => 0b10#2

/-- The state a 2-bit code stands for; code 11 "is assigned to nothing" (R64). -/
def stateOfCode (c : BitVec 2) : Option EncoderState :=
  if c = 0b00#2 then some .idle
  else if c = 0b01#2 then some .accumulating
  else if c = 0b10#2 then some .presenting
  else none

/-- `DISP[3] = start` (R65). -/
def dispStart (w : DispatchWord) : Bool := w.getLsbD 3

/-- `DISP[2:1] = state code` (R65). -/
def dispState (w : DispatchWord) : BitVec 2 := w.extractLsb' 1 2

/-- `DISP[0] = term` (R65). -/
def dispTerm (w : DispatchWord) : Bool := w.getLsbD 0

/-- A dispatch word from its three fields (R65). -/
def packDispatch (start : Bool) (code : BitVec 2) (term : Bool) : DispatchWord :=
  BitVec.ofBool start ++ code ++ BitVec.ofBool term

/-- The selection table R66, its rows in the order the spec gives them. -/
def decodeDispatch (w : DispatchWord) : Except DecodeError Instr :=
  match dispStart w, stateOfCode (dispState w), dispTerm w with
  | true, some st, term => .ok (.start st term)
  | true, none, _ => .error .undefinedStateCode
  | false, some .accumulating, false => .ok .accum
  | false, some .accumulating, true => .ok .present
  | false, some .idle, term => .ok (.holdIdle term)
  | false, some .presenting, term => .ok (.holdPresenting term)
  | false, none, term => .ok (.reservedState term)

/-- The dispatch word of an operation, from the same table R66. -/
def encode : Instr → DispatchWord
  | .start st term => packDispatch true (stateCode st) term
  | .accum => 0b0010#4
  | .present => 0b0011#4
  | .holdIdle term => packDispatch false 0b00#2 term
  | .holdPresenting term => packDispatch false 0b10#2 term
  | .reservedState term => packDispatch false 0b11#2 term

/-- The decoder on bytes: one byte holds one dispatch word in its lower four bits (DESIGN CHOICE, log 13). -/
def decode : List Byte → Except DecodeError (Instr × List Byte)
  | [] => .error .noWord
  | b :: rest =>
    if b.extractLsb' 4 4 = 0#4 then (decodeDispatch (b.extractLsb' 0 4)).map fun i => (i, rest)
    else .error .notADispatchWord

/-- The byte of an operation. -/
def encodeBytes (i : Instr) : List Byte := [(0#4 ++ encode i : BitVec 8)]

/-- The bytes of an operation whose bits are `w`, the first byte at the lowest place. -/
def tableBytes (nbits w : Nat) : List Byte :=
  (List.range ((nbits + 7) / 8)).map fun b => BitVec.ofNat 8 (w / 2 ^ (8 * b))

/-- The operation the decoder reads from a word numbered as spec/opcode_table.json numbers it. -/
def decodeTableWord (nbits w : Nat) : Option Instr :=
  match decode (tableBytes nbits w) with
  | .ok (i, _) => some i
  | .error _ => none

/-- A row of spec/opcode_table.json: the words `w` with `w AND mask = pattern`. -/
structure TableRow where
  mnemonic : String
  mask : DispatchWord
  pattern : DispatchWord
  deriving DecidableEq, Repr

/-- spec/opcode_table.json, its rows in the order of the file. -/
def opcodeTable : List TableRow :=
  [ ⟨"START", 0b1000#4, 0b1000#4⟩,
    ⟨"ACCUM", 0b1111#4, 0b0010#4⟩,
    ⟨"PRESENT", 0b1111#4, 0b0011#4⟩,
    ⟨"HOLD.I", 0b1110#4, 0b0000#4⟩,
    ⟨"HOLD.P", 0b1110#4, 0b0100#4⟩,
    ⟨"reserved__state_code_11", 0b1110#4, 0b0110#4⟩ ]

/-- The first row of the table that matches a word ("the first row that matches fires", R66). -/
def firstRow (w : DispatchWord) : Option TableRow :=
  opcodeTable.find? fun r => w &&& r.mask == r.pattern

/-- The mnemonic of an operation, as spec/opcode_table.json spells it. -/
def Instr.mnemonic : Instr → String
  | .start _ _ => "START"
  | .accum => "ACCUM"
  | .present => "PRESENT"
  | .holdIdle _ => "HOLD.I"
  | .holdPresenting _ => "HOLD.P"
  | .reservedState _ => "reserved__state_code_11"

/-- The stimulus word `STIM` of R61: `STIM[k] = start`, `STIM[k-1:0] = data_input`. -/
def packStimulus {k : Nat} (x : Stimulus k) : BitVec (k + 1) := BitVec.cons x.start x.dataInput

/-- The stimulus a word of `k+1` bits stands for (R61). -/
def unpackStimulus {k : Nat} (w : BitVec (k + 1)) : Stimulus k := ⟨w.getLsbD k, w.setWidth k⟩

/-- The response word `RESP` of R62: `RESP[n] = done`, `RESP[n-1:0] = data_output`. -/
def packResponse {n : Nat} (r : Response n) : BitVec (n + 1) := BitVec.cons r.done r.codeword

/-- The response a word of `n+1` bits stands for (R62). -/
def unpackResponse {n : Nat} (w : BitVec (n + 1)) : Response n := ⟨w.setWidth n, w.getLsbD n⟩

end Sys2Proof
end

