-- ==== Sys2Proof/Machine/State.lean ====
section
/-! DEFINITION. The state of the machine (10_state.md R20), the reasons a step can stop, and reset (R30, R165). -/

namespace Sys2Proof.Machine

/-- The registers of one encoder: the tuple of 10_state.md R20, whole ("There is nothing else"). -/
structure Regs (k n : Nat) where
  /-- `state` (R21). -/
  state : EncoderState
  /-- `counter`, a natural in `[0, k-1]` (R22; D5, log 7). -/
  counter : Fin k
  /-- `latched_input`, `k` bits (R23). -/
  latchedInput : BitVec k
  /-- The accumulator bank as its columns: `acc[j]` is `A_j`, whose bit `i` is `acc[i][j]` (R24; log 15). -/
  acc : Vector (BitVec n) k
  /-- `output`, `n` bits; it drives the port `data_output` (R25). -/
  output : BitVec n
  /-- `done`; it drives the port `done` (R26). -/
  done : Bool
  /-- `start_prev`: `start` as sampled at the latest edge (R27; D7, log 9). -/
  startPrev : Bool
  deriving DecidableEq, Repr

/-- One encoder and what the harness has put on its inputs. -/
structure State where
  /-- The configuration the encoder was constructed with; no step writes it (R33, R42; log 1). -/
  cfg : Config
  /-- The encoder's registers. -/
  regs : Regs cfg.k cfg.n
  /-- The inputs of the coming edges, the next edge first; harness-side, not the encoder's state (R28, R126; log 3). -/
  stimuli : List (Stimulus cfg.k)
  deriving DecidableEq, Repr

/-- A fault of the hardware: there is none ("No recoverable error conditions exist in the core", R140; log 17). -/
inductive Fault where
  deriving DecidableEq, Repr

/-- The refusals, each at the boundary. All are safe: the model has no run where the spec gives none. -/
inductive Refusal where
  /-- Raised by no meaning: an operation that has no meaning yet. Safe. -/
  | notModelled (mnemonic : String)
  /-- `EmptyMatrix`, raised by construction with `k = 0` (R141). Safe. -/
  | emptyMatrix
  /-- `RowTooWide(r)`, raised by construction when `G[r] >= 2^n` for the least such `r` (R142). Safe. -/
  | rowTooWide (row : Nat)
  /-- `SingleRowMatrix`, raised by construction with `k = 1` (R143, D3). Safe. -/
  | singleRowMatrix
  /-- `ZeroWidthCodeword`, raised by construction with `n = 0` (R144, D4). Safe. -/
  | zeroWidthCodeword
  /-- `MessageTooWide(message)`, raised by `assert_start` with `message >= 2^k` (R145, D15). Safe. -/
  | messageTooWide (message : Nat)
  /-- State code 11, which "is not a state", raised by the reserved row of the table only (R69 a, U8). Safe. -/
  | reservedStateCode
  /-- The reset operation of D9 called on an encoder whose configuration has none (R166). Safe. -/
  | noResetOperation
  deriving DecidableEq, Repr

/-- What every step and every meaning answers. -/
abbrev Result := Host.Outcome State Fault Refusal

/-- The reset values (R30, R165): every register zero, `state = Idle`; `start_prev = 0` is the spec's choice D7. -/
def Regs.reset (cfg : Config) : Regs cfg.k cfg.n where
  state := .idle
  counter := cfg.zeroCounter
  latchedInput := 0
  acc := Vector.replicate cfg.k 0
  output := 0
  done := false
  startPrev := false

/-- The state construction yields for a configuration (R135, R165), with nothing on the inputs. -/
def State.resetOf (cfg : Config) : State := ⟨cfg, Regs.reset cfg, []⟩

/-- The reset state. Its configuration is the source's own example (DESIGN CHOICE, log 2), since no rule fixes one. -/
def State.reset : State := State.resetOf Config.sourceExample

end Sys2Proof.Machine
end

