-- ==== Sys2Proof/Machine/Operands.lean ====
section
/-! DEFINITION. What an operation reads: the sampled inputs, message bits, matrix rows, accumulator columns and
entries (30_encoding.md R67, 20_memory.md R41, R43, 43_port_interface.md R130). -/

namespace Sys2Proof.Machine

/-- `data_bit(v, i)`: bit `i` of `v`, bit 0 least significant (R10). -/
def dataBit {k : Nat} (v : BitVec k) (i : Nat) : Bool := v.getLsbD i

/-- The message bit that selects row `r`: bit `k-1-r`, so row 0 pairs with the most significant bit (R43, R67). -/
def selectBit {k : Nat} (m : BitVec k) (r : Nat) : Bool := dataBit m (k - 1 - r)

/-- `GRead(r)` (R41). -/
def gRead (cfg : Config) (r : Fin cfg.k) : BitVec cfg.n := cfg.rows[r]

/-- Column `A_j` of a bank or row `j` of a list of rows, as a function of a natural; 0 outside `[0, k)`, which no
operation reads. -/
def column {n k : Nat} (v : Vector (BitVec n) k) (j : Nat) : BitVec n := if h : j < k then v[j] else 0

/-- `acc[i][j]`, bit `i` of column `A_j` (R24). -/
def accEntry {n k : Nat} (acc : Vector (BitVec n) k) (i j : Nat) : Bool := (column acc j).getLsbD i

/-- The inputs of an edge with `start` deasserted and nothing on `data_input` (R61, R73 `TICK`). -/
def tickStimulus {k : Nat} : Stimulus k := ⟨false, 0⟩

/-- The values on the input wires at the coming edge. With nothing pending `start` is 0 (R126, D11; log 3). -/
def State.wires (s : State) : Stimulus s.cfg.k := s.stimuli.head?.getD tickStimulus

/-- The bits of `counter` in a register of `width` bits, `COUNTER_WIDTH` of D5. -/
def counterBits (width : Nat) {k : Nat} (c : Fin k) : BitVec width := BitVec.ofNat width c.val

end Sys2Proof.Machine
end

