-- ==== Sys2Proof/Machine/Flags.lean ====
section
/-! DEFINITION. The block's flags: the test `term` (30_encoding.md R65), `done` (10_state.md R26) and `start_prev`
(R27), each with the one way it is computed or written. -/

namespace Sys2Proof.Machine

/-- `term = (counter == k-1)` (R65). -/
def term {k : Nat} (c : Fin k) : Bool := decide (c.val = k - 1)

/-- `start_prev <- start`, at every edge (R27, R80). -/
def Regs.recordStart {k n : Nat} (r : Regs k n) (start : Bool) : Regs k n := { r with startPrev := start }

/-- `output` and `done` as they change together at a PRESENT edge (R83, R46). -/
def Regs.showCodeword {k n : Nat} (r : Regs k n) (codeword : BitVec n) : Regs k n :=
  { r with output := codeword, done := true }

/-- The dispatch word of the coming edge (R65): the sampled `start`, the pre-edge state, the pre-edge `term`. -/
def State.dispatchWord (s : State) : DispatchWord :=
  packDispatch s.wires.start (stateCode s.regs.state) (term s.regs.counter)

end Sys2Proof.Machine
end

