-- ==== Sys2Proof/Machine/Combiner.lean ====
section
/-! DEFINITION. The Working-Row Combiner (41_combiner.md R100), a pure function with no state (R101). -/

namespace Sys2Proof.Machine

/-- `W(m)[r] = (m[k-1-r] == 1) ? GRead(r) : 0` (R100): the one message bit is applied to all `n` bits of the row. -/
def workingRow (cfg : Config) (m : BitVec cfg.k) (r : Fin cfg.k) : BitVec cfg.n :=
  if selectBit m r.val then gRead cfg r else 0

/-- `W(m)`, the list of `k` working rows (R100). -/
def workingRows (cfg : Config) (m : BitVec cfg.k) : Vector (BitVec cfg.n) cfg.k :=
  Vector.ofFn fun r => workingRow cfg m r

end Sys2Proof.Machine
end

