-- ==== Sys2Proof/Machine/Accumulator.lean ====
section
/-! DEFINITION. The Accumulator Bank (42_accumulator.md): zeroing (R112), the recurrence (R111), what the bank holds
during an encode (R114), the codeword (R116), and the in-place alternative that R120 records and does not admit. -/

namespace Sys2Proof.Machine

/-- Every entry 0 (R112). -/
def zeroBank (n k : Nat) : Vector (BitVec n) k := Vector.replicate k 0

/-- `AccNext` (R111), from the pre-edge bank (R45): entry 0 is not written, `A_1' = w[1] ^ w[0]`, and
`A_j' = A_{j-1} ^ w[j]` for `2 <= j`. -/
def accNext {n k : Nat} (acc w : Vector (BitVec n) k) : Vector (BitVec n) k :=
  Vector.ofFn fun j : Fin k =>
    if j.val = 0 then column acc 0
    else if j.val = 1 then column w 1 ^^^ column w 0
    else column acc (j.val - 1) ^^^ column w j.val

/-- `XOR_{r < c} f(r)`. -/
def xorBelow {n : Nat} (f : Nat → BitVec n) : Nat → BitVec n
  | 0 => 0
  | c + 1 => xorBelow f c ^^^ f c

/-- `XOR_{r=a..b} f(r)`, which "is 0 when `b < a`" (R13). -/
def xorRange {n : Nat} (f : Nat → BitVec n) (a b : Nat) : BitVec n := xorBelow (fun t => f (a + t)) (b + 1 - a)

/-- Column `A_j` of `Pipe(m, t)` over the working rows `w = W(m)` (R114). -/
def pipeColumn {n : Nat} (w : Nat → BitVec n) (t j : Nat) : BitVec n :=
  if j = 0 then 0
  else if t = 0 then 0
  else if j ≤ t then xorRange w 0 j
  else xorRange w (j - t + 1) j

/-- `Pipe(m, t)`: the bank after `t` ACCUM edges that follow a START with message `m` (R114). -/
def pipe (cfg : Config) (m : BitVec cfg.k) (t : Nat) : Vector (BitVec cfg.n) cfg.k :=
  Vector.ofFn fun j : Fin cfg.k => pipeColumn (column (workingRows cfg m)) t j.val

/-- `Encode(m) = XOR_{r=0..k-1} W(m)[r]` (R116). -/
def encodeMessage (cfg : Config) (m : BitVec cfg.k) : BitVec cfg.n :=
  xorRange (column (workingRows cfg m)) 0 (cfg.k - 1)

/-- The in-place loop of R120 over the entries `1..j`, `j` ascending, each `acc[i][j-1]` read after it was written.
Recorded "so that it is not used": no meaning calls it. -/
def accInPlaceUpTo {n k : Nat} (acc w : Vector (BitVec n) k) : Nat → Vector (BitVec n) k
  | 0 => acc
  | j + 1 =>
    let written := accInPlaceUpTo acc w j
    if h : j + 1 < k then
      written.set (j + 1) ((if j = 0 then column w 0 else column written j) ^^^ column w (j + 1))
    else written

/-- The whole in-place evaluation of one edge (R120), which "this spec does not admit" (D2). -/
def accNextInPlace {n k : Nat} (acc w : Vector (BitVec n) k) : Vector (BitVec n) k := accInPlaceUpTo acc w (k - 1)

end Sys2Proof.Machine
end

