-- ==== Sys2Proof/Machine/Ops.lean ====
section
/-! DEFINITION. The shared operations of an edge over the registers (40_controller.md R81 to R85) and over the inputs
(43_port_interface.md R126, R130). Every right-hand side is a pre-edge value (20_memory.md R45). -/

namespace Sys2Proof.Machine

/-- The state with other registers: the configuration and the pending inputs stay. -/
def State.withRegs (s : State) (r : Regs s.cfg.k s.cfg.n) : State := { s with regs := r }

/-- `counter + 1`, which happens only when `counter < k-1`, so that it never exceeds `k-1` and never wraps (R84). -/
def nextCounter {k : Nat} (c : Fin k) : Fin k := if h : c.val + 1 < k then ⟨c.val + 1, h⟩ else c

/-- Beginning an encode, from any registers (R81). It is also the entry of the block's one pre-empting event, a start
edge during an encode (60_exceptions.md R148, R151): nothing is saved and every register is overwritten, so that there
is no return (R152; log 17). -/
def beginEncode (cfg : Config) (m : BitVec cfg.k) : Regs cfg.k cfg.n where
  state := .accumulating
  counter := cfg.zeroCounter
  latchedInput := m
  acc := zeroBank cfg.n cfg.k
  output := 0
  done := false
  startPrev := true

/-- One edge of the accumulation window (R82). -/
def accumulate (cfg : Config) (r : Regs cfg.k cfg.n) : Regs cfg.k cfg.n :=
  { r.recordStart false with
    counter := nextCounter r.counter
    acc := accNext r.acc (workingRows cfg r.latchedInput) }

/-- Latching the codeword: `output <- A_{k-1}`, `done <- 1`, enter Presenting (R83). -/
def latchCodeword {k n : Nat} (r : Regs k n) : Regs k n :=
  { (r.recordStart false).showCodeword (column r.acc (k - 1)) with state := .presenting }

/-- Nothing changes but `start_prev` (R85). -/
def holdRegs {k n : Nat} (r : Regs k n) : Regs k n := r.recordStart false

/-- The inputs of an edge are consumed by it: the next edge samples the next pending inputs (R130; log 3). -/
def State.consumeInputs (s : State) : State := { s with stimuli := s.stimuli.tail }

/-- What an edge adds around its operation: the inputs it sampled are gone from the wires. -/
def afterEdge : Result → Result
  | .next s => .next s.consumeInputs
  | .fault f => .fault f
  | .refused e => .refused e

/-- The inputs of the next edge become `x`, whatever they were (R126 corner case a: the later call wins). -/
def State.setInputs (s : State) (x : Stimulus s.cfg.k) : State := { s with stimuli := x :: s.stimuli.tail }

/-- The state whose coming edge has the dispatch word `d`, where `d` names a state; state code 11 cannot be put into
`state` (R64), so the state is left as it is (log 8). -/
def State.placeDispatch (s : State) (d : DispatchWord) : State :=
  match stateOfCode (dispState d) with
  | none => s
  | some st =>
    let counter :=
      if dispTerm d then s.cfg.lastCounter
      else if term s.regs.counter then s.cfg.zeroCounter else s.regs.counter
    (s.withRegs { s.regs with state := st, counter := counter }).setInputs ⟨dispStart d, s.wires.dataInput⟩

end Sys2Proof.Machine
end

