-- ==== Sys2Proof/Machine/Controller.lean ====
section
/-! DEFINITION. The meanings of the per-edge operations (40_controller.md R81, R82, R83, R85), one definition each. A
meaning is the operation's effect on any registers; which one fires is the selection's business (R80, R66; log 16). -/

namespace Sys2Proof.Machine

/-- START (R81): samples the message on `data_input` and begins an encode, whatever was in progress. -/
def execStart (s : State) : Result := .next (s.withRegs (beginEncode s.cfg s.wires.dataInput))

/-- ACCUM (R82). -/
def execAccum (s : State) : Result := .next (s.withRegs (accumulate s.cfg s.regs))

/-- PRESENT (R83). -/
def execPresent (s : State) : Result := .next (s.withRegs (latchCodeword s.regs))

/-- HOLD in Idle (R85). -/
def execHoldIdle (s : State) : Result := .next (s.withRegs (holdRegs s.regs))

/-- HOLD in Presenting (R85). -/
def execHoldPresenting (s : State) : Result := .next (s.withRegs (holdRegs s.regs))

/-- State code 11: "no rule gives it a meaning", "reaching it is a refusal of the model" (R69 a, U8). -/
def execReservedState (_s : State) : Result := .refused .reservedStateCode

end Sys2Proof.Machine
end

