-- ==== Sys2Proof/Machine/Dispatch.lean ====
section
/-! DEFINITION. One arm per row of spec/opcode_table.json. -/

namespace Sys2Proof.Machine

def exec (i : Instr) (s : State) : Host.Outcome State Fault Refusal :=
  match i with
  | .start _ _ => Sys2Proof.Machine.execStart s
  | .accum => Sys2Proof.Machine.execAccum s
  | .present => Sys2Proof.Machine.execPresent s
  | .holdIdle _ => Sys2Proof.Machine.execHoldIdle s
  | .holdPresenting _ => Sys2Proof.Machine.execHoldPresenting s
  | .reservedState _ => Sys2Proof.Machine.execReservedState s

end Sys2Proof.Machine
end

