-- ==== Sys2Proof/Machine/Step.lean ====
section
/-! DEFINITION. One clock edge (40_controller.md R80, 43_port_interface.md R127). -/

namespace Sys2Proof.Machine

/-- One edge: the operation the selection table R66 gives for the pre-edge dispatch word (R65) takes its effect, and the
inputs it sampled are consumed. The error branch is never taken: the state is an enumeration (R69 a). -/
def step (s : State) : Host.Outcome State Fault Refusal :=
  match decodeDispatch s.dispatchWord with
  | .ok i => afterEdge (exec i s)
  | .error _ => .refused .reservedStateCode

/-- `count` edges. -/
def run : Nat → State → Host.Outcome State Fault Refusal
  | 0, s => .next s
  | count + 1, s =>
    match step s with
    | .next t => run count t
    | .fault f => .fault f
    | .refused e => .refused e

/-- The state whose very next step runs the operation of the table word `w`: the harness drives `start`, and the pre-edge
`state` and `counter` are those the word tells of (log 2, log 8). A word of more than four bits is no dispatch word. -/
def State.withFetchWord (s : State) (nbits w : Nat) : State :=
  if w % 2 ^ nbits < 16 then s.placeDispatch (BitVec.ofNat 4 (w % 2 ^ nbits)) else s

end Sys2Proof.Machine
end

