-- ==== Sys2Proof/Machine/Ports.lean ====
section
/-! DEFINITION. The Port / Step Interface beside `step` itself: construction (43_port_interface.md R135,
60_exceptions.md R141 to R144, R150), `assert_start` (R126), `read_output` (R128), the inspectable signals (R131, R132)
and the open reset operation (70_reset_and_hazards.md R166, D9). -/

namespace Sys2Proof.Machine

/-- The least row that does not fit `n` bits (R142). -/
def firstRowTooWide (n : Nat) (rows : List Nat) : Option Nat := rows.findIdx? fun g => decide (2 ^ n ≤ g)

theorem firstRowTooWide_none {n : Nat} {rows : List Nat} (h : firstRowTooWide n rows = none) :
    ∀ g ∈ rows, g < 2 ^ n := by
  intro g hg
  have := List.findIdx?_eq_none_iff.mp h g hg
  simpa using this

/-- The configuration of rows that all fit: each row is held as it is, never masked (R142, U1). -/
def configOfRows (n : Nat) (rows : List Nat) (hasResetOp : Bool) (two_le : 2 ≤ rows.length) (one_le : 1 ≤ n)
    (fits : ∀ g ∈ rows, g < 2 ^ n) : Config where
  k := rows.length
  n := n
  rows := Vector.ofFn fun r : Fin rows.length => BitVec.ofNatLT rows[r] (fits _ (List.getElem_mem _))
  hasResetOp := hasResetOp
  two_le_k := two_le
  one_le_n := one_le

/-- Construction from the codeword width and the rows (R63, R135), its checks in the order of R150: `k = 0`, `k = 1`,
`n = 0`, then the rows in ascending order. A refused construction leaves no encoder (R151). -/
def construct (n : Nat) (rows : List Nat) (hasResetOp : Bool := false) : Result :=
  if none_ : rows.length = 0 then .refused .emptyMatrix
  else if one : rows.length = 1 then .refused .singleRowMatrix
  else if zero : n = 0 then .refused .zeroWidthCodeword
  else match wide : firstRowTooWide n rows with
    | some r => .refused (.rowTooWide r)
    | none =>
      .next (State.resetOf (configOfRows n rows hasResetOp (by omega) (by omega) (firstRowTooWide_none wide)))

/-- `assert_start(message)` (R126): the inputs of the next edge become `start = 1` and the message, one-shot (D11). No
register changes. A message of more than `k` bits is refused (R145) and never truncated (U1). -/
def assertStart (s : State) (message : Nat) : Result :=
  if fits : message < 2 ^ s.cfg.k then .next (s.setInputs ⟨true, BitVec.ofNatLT message fits⟩)
  else .refused (.messageTooWide message)

/-- `read_output()` (R128): the pair `(output, done)`; a pure observation (R47). -/
def readOutput (s : State) : Response s.cfg.n := ⟨s.regs.output, s.regs.done⟩

/-- The signals the core must make inspectable: the four port signals (R131) and `start_prev` (R132). -/
structure Signals (k n : Nat) where
  start : Bool
  dataInput : BitVec k
  dataOutput : BitVec n
  done : Bool
  startPrev : Bool
  deriving DecidableEq, Repr

/-- The signals as they stand between two edges; the outputs are the registers themselves (R134). -/
def signals (s : State) : Signals s.cfg.k s.cfg.n where
  start := s.wires.start
  dataInput := s.wires.dataInput
  dataOutput := s.regs.output
  done := s.regs.done
  startPrev := s.regs.startPrev

/-- The reset operation of D9, there only when `HAS_RESET_OP` is true: "yields exactly the state of rule R165" (R166). -/
def resetOperation (s : State) : Result :=
  if s.cfg.hasResetOp then .next (s.withRegs (Regs.reset s.cfg)) else .refused .noResetOperation

end Sys2Proof.Machine
end

