-- ==== Sys2Proof/Machine/Script.lean ====
section
/-! DEFINITION. The stimulus script (30_encoding.md R73) and its pseudo-statements (R74). A binary string of the script
is held as the natural it stands for (R12). -/

namespace Sys2Proof.Machine

/-- The statements of R73, and the one pseudo-statement of R74 whose expansion has no fixed length. -/
inductive Statement where
  /-- `CONFIG n=<n> G=<row0>,<row1>,...` -/
  | config (n : Nat) (rows : List Nat)
  /-- `START <message>`: one edge with `start = 1`. -/
  | start (message : Nat)
  /-- `TICK <c>`: `c` edges with `start = 0`; `TICK` is `TICK 1`. -/
  | tick (count : Nat)
  /-- `READ` -/
  | read
  /-- `EXPECT out=<bits> done=<0 or 1>` -/
  | expect (out : Nat) (done : Bool)
  /-- `WAITDONE` -/
  | waitDone
  deriving DecidableEq, Repr

/-- A line of a script: a statement or a pseudo-statement of R74. -/
inductive ScriptLine where
  | plain (statement : Statement)
  /-- `ENCODE <message>` -/
  | encode (message : Nat)
  /-- `RESTART <message>` -/
  | restart (message : Nat)
  /-- `HOLDSTART <message> <c>` -/
  | holdStart (message : Nat) (count : Nat)
  deriving DecidableEq, Repr

/-- How a script ends. -/
inductive ScriptEnd where
  /-- Every statement ran: the encoder, if one was constructed, and the pairs read, the first read first. -/
  | finished (encoder : Option State) (reads : List (Nat × Bool))
  /-- A construction, a message or an edge was refused. -/
  | refused (reason : Refusal)
  /-- An `EXPECT` did not hold: the harness's own assertion. -/
  | expectationFailed (out : Nat) (done : Bool)
  /-- A `WAITDONE` that never ends (R173, R74). -/
  | waitsForever
  /-- A statement before any `CONFIG`: there is no encoder to act on (R141). -/
  | noEncoder
  deriving DecidableEq, Repr

/-- What one statement leaves. -/
inductive StatementResult where
  | ok (encoder : State) (read : Option (Nat × Bool))
  | stop (how : ScriptEnd)
  deriving DecidableEq, Repr

/-- One edge with the inputs `x` on the wires. -/
def edgeWith (s : State) (x : Stimulus s.cfg.k) : Result := step (s.setInputs x)

/-- `TICK c` (R73): `c` edges with `start = 0` and zeros on `data_input`. -/
def tickTimes : Nat → State → Result
  | 0, s => .next s
  | count + 1, s =>
    match edgeWith s tickStimulus with
    | .next t => tickTimes count t
    | .fault f => .fault f
    | .refused e => .refused e

/-- `START message` (R73): `assert_start(message)` then `step()`. -/
def startEdge (s : State) (message : Nat) : Result :=
  match assertStart s message with
  | .next t => step t
  | .fault f => .fault f
  | .refused e => .refused e

/-- `WAITDONE` (R74): `TICK` repeated until `READ` shows `done = 1`, at most `fuel` times; none when it has not ended by
then. It ends after at most `k` `TICK`s or never (R74, R173), so fuel `k` loses nothing (log 18). -/
def waitDone : Nat → State → Option State
  | 0, s => if s.regs.done then some s else none
  | fuel + 1, s =>
    if s.regs.done then some s
    else match edgeWith s tickStimulus with
      | .next t => waitDone fuel t
      | .fault _ => none
      | .refused _ => none

/-- A statement's result from a port operation's answer. -/
def StatementResult.ofResult : Result → StatementResult
  | .next s => .ok s none
  | .refused e => .stop (.refused e)
  | .fault f => nomatch f

/-- The pair `READ` observes. -/
def readPair (s : State) : Nat × Bool := ((readOutput s).codeword.toNat, (readOutput s).done)

/-- The expansion of a line for an encoder of `k` rows (R74); a statement of R73 is its own expansion. -/
def ScriptLine.expand (k : Nat) : ScriptLine → List Statement
  | .plain st => [st]
  | .encode m => [.start m, .tick k, .read]
  | .restart m => [.start m]
  | .holdStart m c => List.replicate c (.start m)

/-- One statement on an encoder. -/
def runStatement (s : State) : Statement → StatementResult
  | .config n rows => .ofResult (construct n rows)
  | .start m => .ofResult (startEdge s m)
  | .tick c => .ofResult (tickTimes c s)
  | .read => .ok s (some (readPair s))
  | .expect out done => if readPair s = (out, done) then .ok s none else .stop (.expectationFailed out done)
  | .waitDone =>
    match waitDone s.cfg.k s with
    | some t => .ok t none
    | none => .stop .waitsForever

/-- A list of statements on an encoder, after the pairs `reads` were read. -/
def runStatements (s : State) (reads : List (Nat × Bool)) : List Statement → ScriptEnd
  | [] => .finished (some s) reads
  | st :: rest =>
    match runStatement s st with
    | .ok t read => runStatements t (reads ++ read.toList) rest
    | .stop how => how

/-- A list of lines on an encoder; each line is expanded for the encoder it acts on (R74). -/
def runLines (s : State) (reads : List (Nat × Bool)) : List ScriptLine → ScriptEnd
  | [] => .finished (some s) reads
  | line :: rest =>
    match runStatements s reads (line.expand s.cfg.k) with
    | .finished (some t) reads' => runLines t reads' rest
    | how => how

/-- A whole script, which begins with `CONFIG` (R73). -/
def runScript : List ScriptLine → ScriptEnd
  | [] => .finished none []
  | .plain (.config n rows) :: rest =>
    match construct n rows with
    | .next s => runLines s [] rest
    | .refused e => .refused e
    | .fault f => nomatch f
  | _ :: _ => .noEncoder

end Sys2Proof.Machine
end

