-- ==== Sys2Proof/Safety.lean ====
section
/-! DEFINITION. The terms claims use: the step of 40_controller.md R80 written as the spec writes it, sequences of
edges, the invariant of 10_state.md R31 and R32, and what a safe run is. -/

namespace Sys2Proof.Machine

/-- The step function of R80 as the spec writes it, over the registers and the sampled inputs: the selection by tests on
`start`, `state` and `counter`, and `start_prev <- start` at every edge. -/
def edge (cfg : Config) (r : Regs cfg.k cfg.n) (x : Stimulus cfg.k) : Regs cfg.k cfg.n :=
  (if x.start then beginEncode cfg x.dataInput
   else if r.state = .accumulating ∧ r.counter.val < cfg.k - 1 then accumulate cfg r
   else if r.state = .accumulating ∧ r.counter.val = cfg.k - 1 then latchCodeword r
   else r).recordStart x.start

/-- The registers after the edges of a list of stimuli, the first edge first (20_memory.md R49). -/
def edges (cfg : Config) (r : Regs cfg.k cfg.n) : List (Stimulus cfg.k) → Regs cfg.k cfg.n
  | [] => r
  | x :: xs => edges cfg (edge cfg r x) xs

/-- The same edge with the in-place accumulator of 42_accumulator.md R120, for comparing the two. -/
def edgeInPlace (cfg : Config) (r : Regs cfg.k cfg.n) (x : Stimulus cfg.k) : Regs cfg.k cfg.n :=
  if x.start = false ∧ r.state = .accumulating ∧ r.counter.val < cfg.k - 1 then
    { edge cfg r x with acc := accNextInPlace r.acc (workingRows cfg r.latchedInput) }
  else edge cfg r x

/-- The registers after a list of stimuli under the in-place reading (R120). -/
def edgesInPlace (cfg : Config) (r : Regs cfg.k cfg.n) : List (Stimulus cfg.k) → Regs cfg.k cfg.n
  | [] => r
  | x :: xs => edgesInPlace cfg (edgeInPlace cfg r x) xs

/-- The message of the latest start edge of a list of stimuli. -/
def latestMessage {k : Nat} : List (Stimulus k) → Option (BitVec k)
  | [] => none
  | x :: xs => (latestMessage xs).or (if x.start then some x.dataInput else none)

/-- No edge of the list is a start edge. -/
abbrev NoStart {k : Nat} (xs : List (Stimulus k)) : Prop := ∀ x ∈ xs, x.start = false

/-- Every edge of the list is a start edge. -/
abbrev AllStart {k : Nat} (xs : List (Stimulus k)) : Prop := ∀ x ∈ xs, x.start = true

/-- The state invariants R31 and the relations R32 between the registers of one encoder. -/
structure RegsInv (cfg : Config) (r : Regs cfg.k cfg.n) : Prop where
  /-- "`acc[i][0] = 0` for every `i`" (R31, R117). -/
  entryZero : column r.acc 0 = 0
  /-- "`state = Idle` implies every register has its reset value" (R31). -/
  idle : r.state = .idle → r = Regs.reset cfg
  /-- "`state = Accumulating` implies `done = 0`, `output = 0` ... and `acc` has the pipeline contents ... for
  `t = counter` and `m = latched_input`" (R31). -/
  accumulating : r.state = .accumulating →
    r.done = false ∧ r.output = 0 ∧ r.acc = pipe cfg r.latchedInput r.counter.val
  /-- "`state = Presenting` implies `done = 1`, `counter = k-1`, `output = A_{k-1} = Encode(latched_input)`, and
  `A_j = XOR_{r=0..j} W(latched_input)[r]` for every `j` in `[1, k-1]`" (R31). -/
  presenting : r.state = .presenting →
    r.done = true ∧ r.counter.val = cfg.k - 1 ∧ r.output = column r.acc (cfg.k - 1) ∧
      r.output = encodeMessage cfg r.latchedInput ∧
      ∀ j, 1 ≤ j → j < cfg.k → column r.acc j = xorRange (column (workingRows cfg r.latchedInput)) 0 j
  /-- "`start_prev = 1` exactly when `state = Accumulating` and `counter = 0`" (R32). -/
  startPrev : r.startPrev = true ↔ r.state = .accumulating ∧ r.counter.val = 0

/-- The invariant of the machine: the registers of its encoder meet R31 and R32. -/
def State.Inv (s : State) : Prop := RegsInv s.cfg s.regs

/-- A run of `count` edges is safe when it reaches a next state: it ends in no fault and no refusal. -/
def SafeRun (count : Nat) (s : State) : Prop := ∃ t, run count s = .next t

/-- Nothing but a completed codeword is on the output: while `done = 0`, `data_output` reads 0 (R32, R171). -/
def OutputIsMeaningful (s : State) : Prop := (readOutput s).done = false → (readOutput s).codeword = 0

end Sys2Proof.Machine
end

