-- ==== Sys2Proof/Certificates/Slice0/Obligations.lean ====
section
/-! DEFINITION. The statements about the model, from the numbered rules of spec/. A statement that rests on a decision of
the spec (D<n>) or on a log entry of the model says so. -/

open Sys2Proof Sys2Proof.Machine

/-! ## The operations: result, completion and frame -/

/-- R81: START completes in every state and overwrites every register; `start = 1` selects it in every state. The
configuration is unchanged and the edge consumes its inputs. -/
def Obligations.StartBeginsAnEncodeFromAnyState : Prop :=
  ∀ s : State, ∃ r : Regs s.cfg.k s.cfg.n,
    (∀ (i j : Nat), accEntry r.acc i j = false) ∧
    r.counter.val = 0 ∧ r.done = false ∧ r.output = 0 ∧ r.latchedInput = s.wires.dataInput ∧
    r.state = .accumulating ∧ r.startPrev = true ∧
    (∀ (st : EncoderState) (t : Bool), exec (.start st t) s = .next (s.withRegs r)) ∧
    (s.wires.start = true → step s = .next (s.withRegs r).consumeInputs)

/-- R82 with R100 and R111 bit by bit: ACCUM completes wherever it is selected (`counter < k-1`), adds 1 to `counter`,
moves every chain by one entry from the pre-edge bank, and leaves `state`, `latched_input`, `output`, `done` alone. -/
def Obligations.AccumAdvancesEveryChainByOneEntry : Prop :=
  ∀ s : State, s.regs.counter.val < s.cfg.k - 1 → ∃ r : Regs s.cfg.k s.cfg.n,
    exec .accum s = .next (s.withRegs r) ∧
    r.counter.val = s.regs.counter.val + 1 ∧
    (∀ i, i < s.cfg.n →
      let w := fun row => (column s.cfg.rows row).getLsbD i && s.regs.latchedInput.getLsbD (s.cfg.k - 1 - row)
      accEntry r.acc i 0 = accEntry s.regs.acc i 0 ∧
      accEntry r.acc i 1 = (w 1 ^^ w 0) ∧
      ∀ j, 2 ≤ j → j < s.cfg.k → accEntry r.acc i j = (accEntry s.regs.acc i (j - 1) ^^ w j)) ∧
    r.state = s.regs.state ∧ r.latchedInput = s.regs.latchedInput ∧ r.output = s.regs.output ∧
    r.done = s.regs.done ∧ r.startPrev = false ∧
    (s.wires.start = false → s.regs.state = .accumulating → step s = .next (s.withRegs r).consumeInputs)

/-- R83: PRESENT completes in every state, copies the pre-edge column `A_{k-1}` bit by bit, raises `done`, enters
Presenting, and leaves `counter`, `latched_input` and the bank alone; it is selected as R83 says. -/
def Obligations.PresentLatchesTheLastColumn : Prop :=
  ∀ s : State, ∃ r : Regs s.cfg.k s.cfg.n,
    exec .present s = .next (s.withRegs r) ∧
    (∀ i, i < s.cfg.n → r.output.getLsbD i = accEntry s.regs.acc i (s.cfg.k - 1)) ∧
    r.done = true ∧ r.state = .presenting ∧ r.startPrev = false ∧
    r.counter = s.regs.counter ∧ r.latchedInput = s.regs.latchedInput ∧ r.acc = s.regs.acc ∧
    (s.wires.start = false → s.regs.state = .accumulating → s.regs.counter.val = s.cfg.k - 1 →
      step s = .next (s.withRegs r).consumeInputs)

/-- R85: HOLD, in Idle and in Presenting, completes in every state and changes `start_prev` only; it is selected by
`start = 0` in those two states. -/
def Obligations.HoldChangesOnlyStartPrev : Prop :=
  ∀ s : State, ∃ r : Regs s.cfg.k s.cfg.n,
    (∀ t : Bool, exec (.holdIdle t) s = .next (s.withRegs r) ∧ exec (.holdPresenting t) s = .next (s.withRegs r)) ∧
    r.startPrev = false ∧
    r.state = s.regs.state ∧ r.counter = s.regs.counter ∧ r.latchedInput = s.regs.latchedInput ∧
    r.acc = s.regs.acc ∧ r.output = s.regs.output ∧ r.done = s.regs.done ∧
    (s.wires.start = false → s.regs.state ≠ .accumulating → step s = .next (s.withRegs r).consumeInputs)

/-- 30_encoding.md section 4 (R69 a) and U8: the reserved row has no meaning; the model refuses it by name (log 8). -/
def Obligations.ReservedStateCodeIsRefused : Prop :=
  ∀ (t : Bool) (s : State), exec (.reservedState t) s = .refused .reservedStateCode

/-! ## One edge -/

/-- The edge around an operation: the operation the pre-edge dispatch word decodes to takes its effect, and then the
inputs it sampled are consumed. -/
def Obligations.StepRunsTheDecodedOperation : Prop :=
  ∀ (s : State) (i : Instr), decodeDispatch s.dispatchWord = .ok i → i.wellFormed = true →
    step s = afterEdge (exec i s) ∧ (∀ t, exec i s = .next t → step s = .next t.consumeInputs) ∧
    s.dispatchWord = packDispatch s.wires.start (stateCode s.regs.state) (term s.regs.counter)

/-- R66 (layout of the word: D17): what the pre-edge dispatch word selects, row by row; the rows cover every case. -/
def Obligations.SelectionTableIsComplete : Prop :=
  ∀ s : State, ∃ i, decodeDispatch s.dispatchWord = .ok i ∧ i.wellFormed = true ∧
    (s.wires.start = true → i = .start s.regs.state (decide (s.regs.counter.val = s.cfg.k - 1))) ∧
    (s.wires.start = false → s.regs.state = .accumulating → s.regs.counter.val < s.cfg.k - 1 → i = .accum) ∧
    (s.wires.start = false → s.regs.state = .accumulating → s.regs.counter.val = s.cfg.k - 1 → i = .present) ∧
    (s.wires.start = false → s.regs.state = .idle → ∃ t, i = .holdIdle t) ∧
    (s.wires.start = false → s.regs.state = .presenting → ∃ t, i = .holdPresenting t)

/-- R80: the step through the dispatch word is the step function as R80 writes it, in every state, for every
configuration and input; the configuration stays and one pending input is consumed. -/
def Obligations.StepIsTheControllerOfRuleEighty : Prop :=
  ∀ s : State, step s = .next ⟨s.cfg, edge s.cfg s.regs s.wires, s.stimuli.tail⟩

/-- R86: at the edge that would have been PRESENT, `start = 1` performs START: the sums never reach `output`. -/
def Obligations.StartWinsOverPresent : Prop :=
  ∀ s : State, s.wires.start = true → s.regs.state = .accumulating → s.regs.counter.val = s.cfg.k - 1 →
    ∃ r : Regs s.cfg.k s.cfg.n, step s = .next (s.withRegs r).consumeInputs ∧
      r.state = .accumulating ∧ r.counter.val = 0 ∧ r.latchedInput = s.wires.dataInput ∧
      r.output = 0 ∧ r.done = false ∧ ∀ j, column r.acc j = 0

/-- R87: the transition table of `state`, all seven rows, each with its operation; no row enters Idle from another
state (the model has no reset edge: D9, log 10). -/
def Obligations.TransitionTableOfState : Prop :=
  ∀ s : State, ∃ (i : Instr) (t : State), decodeDispatch s.dispatchWord = .ok i ∧ step s = .next t ∧
    match s.regs.state, s.wires.start with
    | .idle, false => (∃ b, i = .holdIdle b) ∧ t.regs.state = .idle
    | .accumulating, false =>
      (s.regs.counter.val < s.cfg.k - 1 → i = .accum ∧ t.regs.state = .accumulating) ∧
      (s.regs.counter.val = s.cfg.k - 1 → i = .present ∧ t.regs.state = .presenting)
    | .presenting, false => (∃ b, i = .holdPresenting b) ∧ t.regs.state = .presenting
    | st, true => (∃ b, i = .start st b) ∧ t.regs.state = .accumulating

/-- 60_exceptions.md section 1 (R140) and D20: no run of edges, from any state and for any inputs, faults or is refused. -/
def Obligations.NoEdgeEverFails : Prop := ∀ (count : Nat) (s : State), SafeRun count s

/-- R42: no edge, no port operation and no reset operation changes the configuration. -/
def Obligations.ConfigurationIsNeverWritten : Prop :=
  (∀ (count : Nat) (s t : State), run count s = .next t → t.cfg = s.cfg) ∧
  (∀ (s t : State) (m : Nat), assertStart s m = .next t → t.cfg = s.cfg) ∧
  (∀ s t : State, resetOperation s = .next t → t.cfg = s.cfg)

/-- 43_port_interface.md section 2 (R134): over one edge, `done` rises only at PRESENT and falls only at a start edge, and
`data_output` changes only at those two. -/
def Obligations.OutputsChangeOnlyAtStartAndPresent : Prop :=
  ∀ s : State, ∃ r : Regs s.cfg.k s.cfg.n, step s = .next (s.withRegs r).consumeInputs ∧
    (s.regs.done = false → r.done = true →
      s.wires.start = false ∧ s.regs.state = .accumulating ∧ s.regs.counter.val = s.cfg.k - 1) ∧
    (s.regs.done = true → r.done = false → s.wires.start = true) ∧
    (r.output ≠ s.regs.output →
      (s.wires.start = true ∧ r.output = 0 ∧ r.done = false) ∨
      (s.wires.start = false ∧ s.regs.state = .accumulating ∧ s.regs.counter.val = s.cfg.k - 1 ∧ r.done = true))

/-- 40_controller.md section 6 (R87, R93): an edge leaves Idle for ever. The model has no reset edge (D9, log 10). -/
def Obligations.IdleIsNeverReentered : Prop :=
  ∀ s t : State, step s = .next t → t.regs.state = .idle → s.regs.state = .idle

/-! ## Reset and the invariant -/

/-- R165: every register after construction, for every configuration; hence both outputs read 0. -/
def Obligations.ResetLeavesEveryRegisterZero : Prop :=
  ∀ cfg : Config, let s := State.resetOf cfg
    s.regs.state = .idle ∧ s.regs.counter.val = 0 ∧ s.regs.latchedInput = 0 ∧
    (∀ i j, accEntry s.regs.acc i j = false) ∧ s.regs.output = 0 ∧ s.regs.done = false ∧
    s.regs.startPrev = false ∧ (readOutput s).codeword = 0 ∧ (readOutput s).done = false

/-- 10_state.md section 7 (R31, R32): the invariant holds at reset, for every configuration, the model's own among them. -/
def Obligations.RegisterRelationsHoldAtReset : Prop :=
  (∀ cfg : Config, (State.resetOf cfg).Inv) ∧ State.reset.Inv

/-- 10_state.md section 7 (R31, R32): every edge keeps the invariant, from every state that meets it, reachable or not. -/
def Obligations.RegisterRelationsAreKeptByEveryEdge : Prop :=
  ∀ s t : State, s.Inv → step s = .next t → t.Inv

/-- 10_state.md section 7 (R32): under the invariant `done = 1` exactly in Presenting, and a non-zero output is shown only
there. -/
def Obligations.DoneExactlyInPresenting : Prop :=
  ∀ s : State, s.Inv → (s.regs.done = true ↔ s.regs.state = .presenting) ∧
    (s.regs.output ≠ 0 → s.regs.state = .presenting) ∧ OutputIsMeaningful s

/-- R169: any number of edges before the first start leaves the reset state, and the outputs read 0 (`start_prev = 0` at reset
is the spec's decision D7, log 9). -/
def Obligations.EdgesBeforeTheFirstStartDoNothing : Prop :=
  ∀ (cfg : Config) (ticks : List (Stimulus cfg.k)), NoStart ticks →
    run ticks.length ⟨cfg, Regs.reset cfg, ticks⟩ = .next (State.resetOf cfg) ∧
    readOutput (State.resetOf cfg) = ⟨0, false⟩

/-! ## The combiner, the bank and the codeword -/

/-- R100, bit by bit: `W(m)[r][i] = G[r][i] & m[k-1-r]`; row 0 pairs with the most significant message bit. -/
def Obligations.WorkingRowIsRowAndMessageBit : Prop :=
  ∀ (cfg : Config) (m : BitVec cfg.k) (r i : Nat), r < cfg.k → i < cfg.n →
    (column (workingRows cfg m) r).getLsbD i = ((column cfg.rows r).getLsbD i && m.getLsbD (cfg.k - 1 - r))

/-- 41_combiner.md (R104): the zero message, the message of all ones, a single bit, and a zero row. -/
def Obligations.WorkingRowCornerCases : Prop :=
  ∀ cfg : Config,
    (∀ r, column (workingRows cfg 0) r = 0) ∧
    (∀ r, r < cfg.k → column (workingRows cfg (BitVec.allOnes cfg.k)) r = column cfg.rows r) ∧
    (∀ r r', r < cfg.k → r' < cfg.k →
      column (workingRows cfg (BitVec.twoPow cfg.k (cfg.k - 1 - r))) r' = if r' = r then column cfg.rows r else 0) ∧
    (∀ m r, column cfg.rows r = 0 → column (workingRows cfg m) r = 0)

/-- R111 in column form: entry 0 is not written, `A_1' = w[1] ^ w[0]`, `A_j' = A_{j-1} ^ w[j]` from the pre-edge bank. -/
def Obligations.RecurrenceInColumnForm : Prop :=
  ∀ (n k : Nat) (acc w : Vector (BitVec n) k),
    column (accNext acc w) 0 = column acc 0 ∧
    (2 ≤ k → column (accNext acc w) 1 = column w 1 ^^^ column w 0) ∧
    ∀ j, 2 ≤ j → j < k → column (accNext acc w) j = column acc (j - 1) ^^^ column w j

/-- 42_accumulator.md section 3 (R118): bit position `i` after the recurrence depends on bit position `i` before it only. -/
def Obligations.BitPositionsAreIndependentLanes : Prop :=
  ∀ (n k : Nat) (acc acc' w w' : Vector (BitVec n) k) (i : Nat),
    (∀ j, accEntry acc i j = accEntry acc' i j) → (∀ j, accEntry w i j = accEntry w' i j) →
    ∀ j, accEntry (accNext acc w) i j = accEntry (accNext acc' w') i j

/-- 42_accumulator.md section 2 (R114): START leaves `Pipe(m, 0)`, each ACCUM edge takes `Pipe(m, t)` to `Pipe(m, t+1)`, and
nothing changes from `t = k-1` on. -/
def Obligations.PipelineAdvancesOneEntryPerEdge : Prop :=
  ∀ (cfg : Config) (m : BitVec cfg.k),
    pipe cfg m 0 = (beginEncode cfg m).acc ∧
    (∀ t, accNext (pipe cfg m t) (workingRows cfg m) = pipe cfg m (t + 1)) ∧
    ∀ t, cfg.k - 1 ≤ t → pipe cfg m t = pipe cfg m (cfg.k - 1)

/-- 42_accumulator.md section 2 (R115): column `A_{k-1}` is the codeword after `k-1` ACCUM edges; one edge earlier it is short
of it by `w[0] ^ w[1]`. -/
def Obligations.LastColumnCompletesInTheLastEdge : Prop :=
  ∀ (cfg : Config) (m : BitVec cfg.k),
    column (pipe cfg m (cfg.k - 1)) (cfg.k - 1) = encodeMessage cfg m ∧
    (3 ≤ cfg.k → column (pipe cfg m (cfg.k - 2)) (cfg.k - 1) =
      encodeMessage cfg m ^^^ (column (workingRows cfg m) 0 ^^^ column (workingRows cfg m) 1))

/-- R116: the codeword, bit by bit, is the GF(2) product of the message and the matrix, and it is what the bank's last
column holds after `k-1` ACCUM edges. -/
def Obligations.CodewordIsTheMatrixProduct : Prop :=
  ∀ (cfg : Config) (m : BitVec cfg.k),
    encodeMessage cfg m = xorRange (column (workingRows cfg m)) 0 (cfg.k - 1) ∧
    encodeMessage cfg m =
      (List.range cfg.k).foldl (fun c r => c ^^^ (if m.getLsbD (cfg.k - 1 - r) then column cfg.rows r else 0)) 0 ∧
    (∀ i, i < cfg.n → (encodeMessage cfg m).getLsbD i =
      (List.range cfg.k).foldl (fun b r => b ^^ ((column cfg.rows r).getLsbD i && m.getLsbD (cfg.k - 1 - r))) false) ∧
    column (pipe cfg m (cfg.k - 1)) (cfg.k - 1) = encodeMessage cfg m

/-- 42_accumulator.md section 3 (R119): `Encode` is linear over GF(2), and a single message bit selects its row. -/
def Obligations.EncodeIsLinear : Prop :=
  ∀ cfg : Config,
    (∀ a b, encodeMessage cfg (a ^^^ b) = encodeMessage cfg a ^^^ encodeMessage cfg b) ∧
    encodeMessage cfg 0 = 0 ∧
    ∀ r, r < cfg.k → encodeMessage cfg (BitVec.twoPow cfg.k (cfg.k - 1 - r)) = column cfg.rows r

/-- 40_controller.md section 3 (R84) and D5: in a register of any width that holds `[0, k-1]` the counter is read exactly, and
the increment of an ACCUM edge never wraps. -/
def Obligations.CounterFitsEveryAdmissibleWidth : Prop :=
  ∀ (width k : Nat) (c : Fin k), k ≤ 2 ^ width →
    (counterBits width c).toNat = c.val ∧
    (c.val < k - 1 → counterBits width (nextCounter c) = counterBits width c + 1 ∧ (nextCounter c).val = c.val + 1)

/-! ## Runs -/

/-- 20_memory.md section 3 (R49): a run is the edges of its inputs in order, from any registers. -/
def Obligations.RunIsTheEdgesInOrder : Prop :=
  ∀ (cfg : Config) (r : Regs cfg.k cfg.n) (xs rest : List (Stimulus cfg.k)),
    run xs.length ⟨cfg, r, xs ++ rest⟩ = .next ⟨cfg, edges cfg r xs, rest⟩

/-- 40_controller.md section 7 (R88, R90; latency by D1, log 4; bank by D2, log 5): the whole trace of an encode that no
start edge interrupts, from any registers: every register after `d` edges that follow the start edge. -/
def Obligations.TraceOfAnUninterruptedEncode : Prop :=
  ∀ (cfg : Config) (r : Regs cfg.k cfg.n) (m : BitVec cfg.k) (ticks rest : List (Stimulus cfg.k)), NoStart ticks →
    ∃ r' : Regs cfg.k cfg.n,
      run (ticks.length + 1) ⟨cfg, r, ⟨true, m⟩ :: (ticks ++ rest)⟩ = .next ⟨cfg, r', rest⟩ ∧
      r'.latchedInput = m ∧
      (ticks.length ≤ cfg.k - 1 →
        r'.state = .accumulating ∧ r'.counter.val = ticks.length ∧ r'.acc = pipe cfg m ticks.length ∧
        r'.output = 0 ∧ r'.done = false ∧ r'.startPrev = decide (ticks.length = 0)) ∧
      (cfg.k ≤ ticks.length →
        r'.state = .presenting ∧ r'.counter.val = cfg.k - 1 ∧ r'.acc = pipe cfg m (cfg.k - 1) ∧
        r'.output = encodeMessage cfg m ∧ r'.done = true ∧ r'.startPrev = false)

/-- R177 as resolved by C1 (D1, log 4): with the start edge at `S` and no further start, `done = 0` after each of
`S .. S+k-1` and `done = 1` after `S+k`, for every configuration and message. -/
def Obligations.DoneRisesExactlyKEdgesAfterStart : Prop :=
  ∀ (cfg : Config) (r : Regs cfg.k cfg.n) (m : BitVec cfg.k) (ticks : List (Stimulus cfg.k)), NoStart ticks →
    ∃ r' : Regs cfg.k cfg.n,
      run (ticks.length + 1) ⟨cfg, r, ⟨true, m⟩ :: ticks⟩ = .next ⟨cfg, r', []⟩ ∧
      (r'.done = true ↔ cfg.k ≤ ticks.length)

/-- R179: in every state that any inputs reach from reset, a raised `done` shows the GF(2) product of the matrix and the
message of the latest start edge, which is the latched one. -/
def Obligations.EveryPresentedCodewordIsCorrect : Prop :=
  ∀ (cfg : Config) (xs : List (Stimulus cfg.k)), ∃ r : Regs cfg.k cfg.n,
    run xs.length ⟨cfg, Regs.reset cfg, xs⟩ = .next ⟨cfg, r, []⟩ ∧
    (r.done = true → latestMessage xs = some r.latchedInput ∧ r.output = encodeMessage cfg r.latchedInput ∧
      ∀ i, i < cfg.n → r.output.getLsbD i = (List.range cfg.k).foldl
        (fun b row => b ^^ ((column cfg.rows row).getLsbD i && r.latchedInput.getLsbD (cfg.k - 1 - row))) false)

/-- R180: `start` while Accumulating restarts with the new message at that edge, and in every run from reset a non-zero
`data_output` is `Encode` of the message of the latest start edge: no partial or abandoned sum is ever shown. -/
def Obligations.NoPartialResultIsEverLatched : Prop :=
  (∀ s : State, s.wires.start = true → s.regs.state = .accumulating → ∃ r : Regs s.cfg.k s.cfg.n,
    step s = .next (s.withRegs r).consumeInputs ∧ r.state = .accumulating ∧ r.counter.val = 0 ∧
    r.latchedInput = s.wires.dataInput ∧ r.acc = pipe s.cfg s.wires.dataInput 0 ∧ r.output = 0 ∧ r.done = false) ∧
  ∀ (cfg : Config) (xs : List (Stimulus cfg.k)), ∃ r : Regs cfg.k cfg.n,
    run xs.length ⟨cfg, Regs.reset cfg, xs⟩ = .next ⟨cfg, r, []⟩ ∧
    (r.output ≠ 0 → ∃ m, latestMessage xs = some m ∧ r.output = encodeMessage cfg m)

/-- 70_reset_and_hazards.md section 3 (R172): a second start edge at `S+d+1`, `d < k`, discards the encode begun at `S`: `done`
and `data_output` stay 0 until `k` edges after the second start edge, which then shows the second codeword. -/
def Obligations.EarlyStartDiscardsTheEncodeInFlight : Prop :=
  ∀ (cfg : Config) (r : Regs cfg.k cfg.n) (m m' : BitVec cfg.k) (ticks ticks' : List (Stimulus cfg.k)),
    NoStart ticks → NoStart ticks' → ticks.length < cfg.k → ticks'.length ≤ cfg.k →
    (∀ d, d ≤ ticks.length → ∃ r' rest,
      run (d + 1) ⟨cfg, r, ⟨true, m⟩ :: (ticks ++ ⟨true, m'⟩ :: ticks')⟩ = .next ⟨cfg, r', rest⟩ ∧
      r'.done = false ∧ r'.output = 0) ∧
    ∃ r', run (ticks.length + ticks'.length + 2) ⟨cfg, r, ⟨true, m⟩ :: (ticks ++ ⟨true, m'⟩ :: ticks')⟩ =
        .next ⟨cfg, r', []⟩ ∧
      (ticks'.length < cfg.k → r'.done = false ∧ r'.output = 0) ∧
      (ticks'.length = cfg.k → r'.done = true ∧ r'.output = encodeMessage cfg m')

/-- R92: while `start` is held each edge is a START of its own; after the last of them the registers are those of its
message, whatever the earlier ones sampled. -/
def Obligations.HeldStartRestartsAtEveryEdge : Prop :=
  ∀ (cfg : Config) (r : Regs cfg.k cfg.n) (xs rest : List (Stimulus cfg.k)) (m : BitVec cfg.k), AllStart xs →
    ∃ r' : Regs cfg.k cfg.n,
      run (xs.length + 1) ⟨cfg, r, xs ++ ⟨true, m⟩ :: rest⟩ = .next ⟨cfg, r', rest⟩ ∧
      r'.state = .accumulating ∧ r'.counter.val = 0 ∧ (∀ j, column r'.acc j = 0) ∧ r'.output = 0 ∧
      r'.done = false ∧ r'.latchedInput = m ∧ r'.startPrev = true

/-- R70: two input sequences that agree on `start`, and on `data_input` wherever `start = 1`, leave the same registers
after every edge, from any registers. -/
def Obligations.DataInputIsIgnoredWithoutStart : Prop :=
  ∀ (cfg : Config) (r : Regs cfg.k cfg.n) (xs ys : List (Stimulus cfg.k)),
    List.Forall₂ (fun x y => x.start = y.start ∧ (x.start = true → x.dataInput = y.dataInput)) xs ys →
    ∀ d, d ≤ xs.length → ∃ r' : Regs cfg.k cfg.n,
      run d ⟨cfg, r, xs⟩ = .next ⟨cfg, r', xs.drop d⟩ ∧ run d ⟨cfg, r, ys⟩ = .next ⟨cfg, r', ys.drop d⟩

/-- 60_exceptions.md section 2 (R151): what a start edge leaves depends on the message alone; nothing of the encode it
pre-empts can be told from any later state. -/
def Obligations.PreemptionForgetsTheEncodeInFlight : Prop :=
  ∀ (cfg : Config) (r r' : Regs cfg.k cfg.n) (m : BitVec cfg.k) (xs : List (Stimulus cfg.k)) (count : Nat),
    run (count + 1) ⟨cfg, r, ⟨true, m⟩ :: xs⟩ = run (count + 1) ⟨cfg, r', ⟨true, m⟩ :: xs⟩

/-- R176: in every state reached by an edge, `start_prev = 1` implies `done = 0` and `output = 0`. -/
def Obligations.PostStartOutputsAreZero : Prop :=
  ∀ s t : State, step s = .next t → t.regs.startPrev = true → t.regs.done = false ∧ t.regs.output = 0

/-- R178: after the edge that follows a start edge, whatever `start` is at it, `done = 0` and `output = 0`. -/
def Obligations.EdgeAfterStartShowsZero : Prop :=
  ∀ s t u : State, s.wires.start = true → step s = .next t → step t = .next u →
    u.regs.done = false ∧ u.regs.output = 0

/-- R181: once `done` is true, edges without a start leave `data_output`, `done` and every register but `start_prev`. The
premise `RegsInv` rules out states that no run reaches. -/
def Obligations.HoldIsIdempotent : Prop :=
  ∀ (cfg : Config) (r : Regs cfg.k cfg.n) (ticks : List (Stimulus cfg.k)),
    RegsInv cfg r → r.done = true → NoStart ticks → ∃ r' : Regs cfg.k cfg.n,
      run ticks.length ⟨cfg, r, ticks⟩ = .next ⟨cfg, r', []⟩ ∧ r'.recordStart r.startPrev = r ∧
      r'.output = r.output ∧ r'.done = true

/-- 42_accumulator.md section 3 (R120, D2): the in-place reading completes every column at its first edge, and in every run
from reset it shows the same `state`, `counter`, `latched_input`, `output`, `done` and `start_prev` as the pipeline. -/
def Obligations.InPlaceReadingShowsTheSamePorts : Prop :=
  (∀ (cfg : Config) (acc : Vector (BitVec cfg.n) cfg.k) (m : BitVec cfg.k) (j : Nat), 1 ≤ j → j < cfg.k →
    column (accNextInPlace acc (workingRows cfg m)) j = xorRange (column (workingRows cfg m)) 0 j) ∧
  ∀ (cfg : Config) (xs : List (Stimulus cfg.k)),
    let a := edges cfg (Regs.reset cfg) xs
    let b := edgesInPlace cfg (Regs.reset cfg) xs
    a.state = b.state ∧ a.counter = b.counter ∧ a.latchedInput = b.latchedInput ∧ a.output = b.output ∧
      a.done = b.done ∧ a.startPrev = b.startPrev

/-! ## Construction, ports and the script -/

/-- R141: construction with no rows is refused by name, whatever the width, and leaves no encoder. -/
def Obligations.EmptyMatrixIsRefused : Prop :=
  ∀ (n : Nat) (resetOp : Bool), construct n [] resetOp = .refused .emptyMatrix

/-- 60_exceptions.md section 1 (R142 to R144, R150, D3, D4, D14) and 43_port_interface.md R135: what construction answers for
every list of at least one row; an accepted matrix is held row by row as given, in the reset state. -/
def Obligations.ConstructionChecksItsParameters : Prop :=
  ∀ (n : Nat) (rows : List Nat) (resetOp : Bool),
    (rows.length = 1 → construct n rows resetOp = .refused .singleRowMatrix) ∧
    (2 ≤ rows.length → n = 0 → construct n rows resetOp = .refused .zeroWidthCodeword) ∧
    (∀ (r : Nat) (hr : r < rows.length), 2 ≤ rows.length → 1 ≤ n → 2 ^ n ≤ rows[r] →
      (∀ (q : Nat) (hq : q < r), rows[q] < 2 ^ n) → construct n rows resetOp = .refused (.rowTooWide r)) ∧
    (2 ≤ rows.length → 1 ≤ n → (∀ g ∈ rows, g < 2 ^ n) → ∃ cfg : Config,
      construct n rows resetOp = .next (State.resetOf cfg) ∧ cfg.k = rows.length ∧ cfg.n = n ∧
      cfg.hasResetOp = resetOp ∧ ∀ (r : Nat) (hr : r < rows.length), (column cfg.rows r).toNat = rows[r])

/-- 43_port_interface.md section 1 (R126, D11) and 60_exceptions.md R145: a message that fits is put on the wires of the next
edge only and no register changes; a later call wins; a message of more than `k` bits is refused. -/
def Obligations.AssertStartDrivesTheNextEdgeOnly : Prop :=
  ∀ (s : State) (m : Nat),
    (m < 2 ^ s.cfg.k → ∃ x : Stimulus s.cfg.k, x.start = true ∧ x.dataInput.toNat = m ∧
      assertStart s m = .next (s.setInputs x) ∧ (s.setInputs x).wires = x ∧
      (∀ y : Stimulus s.cfg.k, assertStart (s.setInputs y) m = .next (s.setInputs x)) ∧
      (s.stimuli.tail = [] → (s.setInputs x).consumeInputs.wires.start = false)) ∧
    (2 ^ s.cfg.k ≤ m → assertStart s m = .refused (.messageTooWide m))

/-- 43_port_interface.md section 1 (R128): what `read_output` can return, under the invariant; asserting `start` does not
change it before the edge (R134), and the four port signals and `start_prev` can be inspected (R131, R132). -/
def Obligations.ReadOutputShowsZeroOrTheCodeword : Prop :=
  ∀ s : State, s.Inv →
    (s.regs.state ≠ .presenting → readOutput s = ⟨0, false⟩) ∧
    (s.regs.state = .presenting → readOutput s = ⟨encodeMessage s.cfg s.regs.latchedInput, true⟩) ∧
    ∀ x, readOutput (s.setInputs x) = readOutput s ∧
      signals (s.setInputs x) = ⟨x.start, x.dataInput, s.regs.output, s.regs.done, s.regs.startPrev⟩

/-- 70_reset_and_hazards.md section 1 (R166) and D9: the reset operation, where the configuration has it, yields exactly the
registers of reset; where it has none the call is refused (log 10). -/
def Obligations.ResetOperationYieldsTheResetState : Prop :=
  ∀ s : State,
    (s.cfg.hasResetOp = true → resetOperation s = .next (s.withRegs (Regs.reset s.cfg))) ∧
    (s.cfg.hasResetOp = false → resetOperation s = .refused .noResetOperation)

/-- 30_encoding.md section 5 (R74, D16): `ENCODE m` from any state of an encoder reads the codeword of `m` with `done = 1`. -/
def Obligations.EncodeScriptReadsTheCodeword : Prop :=
  ∀ (s : State) (m : BitVec s.cfg.k), ∃ t : State,
    runStatements s [] ((ScriptLine.encode m.toNat).expand s.cfg.k) =
      .finished (some t) [((encodeMessage s.cfg m).toNat, true)]

/-- 30_encoding.md section 5 (R74) and 70_reset_and_hazards.md R173: `WAITDONE` ends within `k` ticks at any point of an encode
in flight, and never ends in Idle; the premise of the second half is what the invariant gives of Idle. -/
def Obligations.WaitDoneEndsDuringAnEncodeAndNeverInIdle : Prop :=
  (∀ s : State, s.regs.state = .accumulating → ∃ t, waitDone s.cfg.k s = some t ∧ t.regs.done = true) ∧
  ∀ (s : State) (fuel : Nat), s.regs.state = .idle → s.regs.done = false → waitDone fuel s = none

/-! ## Words -/

/-- 30_encoding.md sections 2 and 4 (R65, R66): decoding the byte of a well-formed operation gives it back, with every field
at every value, whatever follows it; the byte packing is the model's (log 13). -/
def Obligations.DecodeInvertsEncode : Prop :=
  ∀ (i : Instr) (rest : List Byte), i.wellFormed = true → decode (encodeBytes i ++ rest) = .ok (i, rest)

/-- 30_encoding.md section 2 (R64 to R66): a decoded word is the encoding of what it decodes to and lies in that operation's
row of the table, no two rows share a word, and the only words refused are `1110` and `1111` (log 8). -/
def Obligations.EveryWordHasOneMeaning : Prop :=
  (∀ (w : DispatchWord) (i : Instr), decodeDispatch w = .ok i →
    encode i = w ∧ (firstRow w).map TableRow.mnemonic = some i.mnemonic) ∧
  (∀ w : DispatchWord, (∃ e, decodeDispatch w = .error e) ↔ w = 0b1110#4 ∨ w = 0b1111#4) ∧
  opcodeTable.Pairwise (fun a b => ∀ w : DispatchWord, ¬ (w &&& a.mask = a.pattern ∧ w &&& b.mask = b.pattern))

/-- 30_encoding.md section 2 (R66) and the dispatch vectors V35 to V39 of 95_test_vectors.md: words written out bit by
bit. The last two words name no state (V40, R69); that they decode to the reserved row, which `exec` refuses, is the model's
choice (log 8). -/
def Obligations.DispatchWordsDecodeAsListed : Prop :=
  decodeDispatch 0b1000#4 = .ok (.start .idle false) ∧ decodeDispatch 0b1001#4 = .ok (.start .idle true) ∧
  decodeDispatch 0b1010#4 = .ok (.start .accumulating false) ∧
  decodeDispatch 0b1011#4 = .ok (.start .accumulating true) ∧
  decodeDispatch 0b1100#4 = .ok (.start .presenting false) ∧ decodeDispatch 0b1101#4 = .ok (.start .presenting true) ∧
  decodeDispatch 0b0010#4 = .ok .accum ∧ decodeDispatch 0b0011#4 = .ok .present ∧
  decodeDispatch 0b0000#4 = .ok (.holdIdle false) ∧ decodeDispatch 0b0001#4 = .ok (.holdIdle true) ∧
  decodeDispatch 0b0100#4 = .ok (.holdPresenting false) ∧ decodeDispatch 0b0101#4 = .ok (.holdPresenting true) ∧
  decodeDispatch 0b0110#4 = .ok (.reservedState false) ∧ decodeDispatch 0b0111#4 = .ok (.reservedState true)

/-- 30_encoding.md section 1 (R61, R62, D16): the layout of the stimulus and the response word, and that neither loses a bit. -/
def Obligations.PortWordsRoundTrip : Prop :=
  (∀ (k : Nat) (x : Stimulus k), (packStimulus x).getLsbD k = x.start ∧
    (∀ i, i < k → (packStimulus x).getLsbD i = x.dataInput.getLsbD i) ∧ unpackStimulus (packStimulus x) = x) ∧
  (∀ (k : Nat) (w : BitVec (k + 1)), packStimulus (unpackStimulus w) = w) ∧
  (∀ (n : Nat) (r : Response n), (packResponse r).getLsbD n = r.done ∧
    (∀ i, i < n → (packResponse r).getLsbD i = r.codeword.getLsbD i) ∧ unpackResponse (packResponse r) = r) ∧
  ∀ (n : Nat) (w : BitVec (n + 1)), packResponse (unpackResponse w) = w
end

