-- ==== Sys2Proof/Laws/State.lean ====
section
/-! SUPPORT. One lemma per field per update of the state and of the registers, each true by unfolding once, so that no
later proof unfolds a record update. -/

namespace Sys2Proof.Machine

variable {k n : Nat}

/-! ### The state -/

@[simp] theorem withRegs_cfg (s : State) (r) : (s.withRegs r).cfg = s.cfg := rfl
@[simp] theorem withRegs_regs (s : State) (r) : (s.withRegs r).regs = r := rfl
@[simp] theorem withRegs_stimuli (s : State) (r) : (s.withRegs r).stimuli = s.stimuli := rfl
@[simp] theorem withRegs_wires (s : State) (r) : (s.withRegs r).wires = s.wires := rfl
@[simp] theorem withRegs_self (s : State) : s.withRegs s.regs = s := rfl
@[simp] theorem withRegs_withRegs (s : State) (r r') : (s.withRegs r).withRegs r' = s.withRegs r' := rfl

@[simp] theorem consumeInputs_cfg (s : State) : s.consumeInputs.cfg = s.cfg := rfl
@[simp] theorem consumeInputs_regs (s : State) : s.consumeInputs.regs = s.regs := rfl
@[simp] theorem consumeInputs_stimuli (s : State) : s.consumeInputs.stimuli = s.stimuli.tail := rfl

@[simp] theorem setInputs_cfg (s : State) (x) : (s.setInputs x).cfg = s.cfg := rfl
@[simp] theorem setInputs_regs (s : State) (x) : (s.setInputs x).regs = s.regs := rfl
@[simp] theorem setInputs_stimuli (s : State) (x) : (s.setInputs x).stimuli = x :: s.stimuli.tail := rfl
@[simp] theorem setInputs_wires (s : State) (x) : (s.setInputs x).wires = x := rfl

@[simp] theorem resetOf_cfg (cfg : Config) : (State.resetOf cfg).cfg = cfg := rfl
@[simp] theorem resetOf_regs (cfg : Config) : (State.resetOf cfg).regs = Regs.reset cfg := rfl
@[simp] theorem resetOf_stimuli (cfg : Config) : (State.resetOf cfg).stimuli = [] := rfl

theorem wires_nil {cfg : Config} (r) : (State.mk cfg r []).wires = tickStimulus := rfl
theorem wires_cons {cfg : Config} (r) (x) (xs) : (State.mk cfg r (x :: xs)).wires = x := rfl

/-! ### The registers after reset -/

@[simp] theorem reset_state (cfg : Config) : (Regs.reset cfg).state = .idle := rfl
@[simp] theorem reset_counter (cfg : Config) : (Regs.reset cfg).counter = cfg.zeroCounter := rfl
@[simp] theorem reset_latchedInput (cfg : Config) : (Regs.reset cfg).latchedInput = 0 := rfl
@[simp] theorem reset_acc (cfg : Config) : (Regs.reset cfg).acc = Vector.replicate cfg.k 0 := rfl
@[simp] theorem reset_output (cfg : Config) : (Regs.reset cfg).output = 0 := rfl
@[simp] theorem reset_done (cfg : Config) : (Regs.reset cfg).done = false := rfl
@[simp] theorem reset_startPrev (cfg : Config) : (Regs.reset cfg).startPrev = false := rfl

@[simp] theorem zeroCounter_val (cfg : Config) : cfg.zeroCounter.val = 0 := rfl
@[simp] theorem lastCounter_val (cfg : Config) : cfg.lastCounter.val = cfg.k - 1 := rfl

/-! ### Recording `start` -/

@[simp] theorem recordStart_state (r : Regs k n) (b) : (r.recordStart b).state = r.state := rfl
@[simp] theorem recordStart_counter (r : Regs k n) (b) : (r.recordStart b).counter = r.counter := rfl
@[simp] theorem recordStart_latchedInput (r : Regs k n) (b) : (r.recordStart b).latchedInput = r.latchedInput := rfl
@[simp] theorem recordStart_acc (r : Regs k n) (b) : (r.recordStart b).acc = r.acc := rfl
@[simp] theorem recordStart_output (r : Regs k n) (b) : (r.recordStart b).output = r.output := rfl
@[simp] theorem recordStart_done (r : Regs k n) (b) : (r.recordStart b).done = r.done := rfl
@[simp] theorem recordStart_startPrev (r : Regs k n) (b) : (r.recordStart b).startPrev = b := rfl
@[simp] theorem recordStart_recordStart (r : Regs k n) (b c) : (r.recordStart b).recordStart c = r.recordStart c := rfl

/-! ### START -/

@[simp] theorem beginEncode_state (cfg : Config) (m) : (beginEncode cfg m).state = .accumulating := rfl
@[simp] theorem beginEncode_counter (cfg : Config) (m) : (beginEncode cfg m).counter = cfg.zeroCounter := rfl
@[simp] theorem beginEncode_latchedInput (cfg : Config) (m) : (beginEncode cfg m).latchedInput = m := rfl
@[simp] theorem beginEncode_acc (cfg : Config) (m) : (beginEncode cfg m).acc = zeroBank cfg.n cfg.k := rfl
@[simp] theorem beginEncode_output (cfg : Config) (m) : (beginEncode cfg m).output = 0 := rfl
@[simp] theorem beginEncode_done (cfg : Config) (m) : (beginEncode cfg m).done = false := rfl
@[simp] theorem beginEncode_startPrev (cfg : Config) (m) : (beginEncode cfg m).startPrev = true := rfl

/-! ### ACCUM -/

@[simp] theorem accumulate_state (cfg : Config) (r) : (accumulate cfg r).state = r.state := rfl
@[simp] theorem accumulate_counter (cfg : Config) (r) : (accumulate cfg r).counter = nextCounter r.counter := rfl
@[simp] theorem accumulate_latchedInput (cfg : Config) (r) : (accumulate cfg r).latchedInput = r.latchedInput := rfl
@[simp] theorem accumulate_acc (cfg : Config) (r) :
    (accumulate cfg r).acc = accNext r.acc (workingRows cfg r.latchedInput) := rfl
@[simp] theorem accumulate_output (cfg : Config) (r) : (accumulate cfg r).output = r.output := rfl
@[simp] theorem accumulate_done (cfg : Config) (r) : (accumulate cfg r).done = r.done := rfl
@[simp] theorem accumulate_startPrev (cfg : Config) (r) : (accumulate cfg r).startPrev = false := rfl

/-! ### PRESENT -/

@[simp] theorem latchCodeword_state (r : Regs k n) : (latchCodeword r).state = .presenting := rfl
@[simp] theorem latchCodeword_counter (r : Regs k n) : (latchCodeword r).counter = r.counter := rfl
@[simp] theorem latchCodeword_latchedInput (r : Regs k n) : (latchCodeword r).latchedInput = r.latchedInput := rfl
@[simp] theorem latchCodeword_acc (r : Regs k n) : (latchCodeword r).acc = r.acc := rfl
@[simp] theorem latchCodeword_output (r : Regs k n) : (latchCodeword r).output = column r.acc (k - 1) := rfl
@[simp] theorem latchCodeword_done (r : Regs k n) : (latchCodeword r).done = true := rfl
@[simp] theorem latchCodeword_startPrev (r : Regs k n) : (latchCodeword r).startPrev = false := rfl

/-! ### HOLD -/

@[simp] theorem holdRegs_state (r : Regs k n) : (holdRegs r).state = r.state := rfl
@[simp] theorem holdRegs_counter (r : Regs k n) : (holdRegs r).counter = r.counter := rfl
@[simp] theorem holdRegs_latchedInput (r : Regs k n) : (holdRegs r).latchedInput = r.latchedInput := rfl
@[simp] theorem holdRegs_acc (r : Regs k n) : (holdRegs r).acc = r.acc := rfl
@[simp] theorem holdRegs_output (r : Regs k n) : (holdRegs r).output = r.output := rfl
@[simp] theorem holdRegs_done (r : Regs k n) : (holdRegs r).done = r.done := rfl
@[simp] theorem holdRegs_startPrev (r : Regs k n) : (holdRegs r).startPrev = false := rfl

/-! ### The ports -/

@[simp] theorem readOutput_codeword (s : State) : (readOutput s).codeword = s.regs.output := rfl
@[simp] theorem readOutput_done (s : State) : (readOutput s).done = s.regs.done := rfl

end Sys2Proof.Machine
end

