-- ==== Sys2Proof/Laws/Ops.lean ====
section
/-! SUPPORT. What each shared operation does, said once: the counter, columns of vectors, the combiner, the accumulator
recurrence and the XOR sums. Later proofs cite these and unfold nothing. -/

namespace Sys2Proof.Machine

variable {k n : Nat}

/-! ### The counter -/

theorem term_eq_true_iff (c : Fin k) : term c = true ↔ c.val = k - 1 := by simp [term]

theorem term_eq_false_iff (c : Fin k) : term c = false ↔ c.val < k - 1 := by
  simp only [term, decide_eq_false_iff_not]
  omega

theorem nextCounter_val (c : Fin k) (h : c.val < k - 1) : (nextCounter c).val = c.val + 1 := by
  simp only [nextCounter]
  rw [dif_pos (by omega)]

/-! ### Columns -/

theorem column_of_lt (v : Vector (BitVec n) k) {j : Nat} (h : j < k) : column v j = v[j] := by simp [column, h]

theorem column_of_le (v : Vector (BitVec n) k) {j : Nat} (h : k ≤ j) : column v j = 0 := by
  simp [column, Nat.not_lt.mpr h]

theorem column_ofFn (f : Fin k → BitVec n) {j : Nat} (h : j < k) : column (Vector.ofFn f) j = f ⟨j, h⟩ := by
  simp [column, h]

@[simp] theorem column_zeroBank (j : Nat) : column (zeroBank n k) j = 0 := by simp [column, zeroBank]

theorem zeroBank_eq_replicate : zeroBank n k = Vector.replicate k 0 := rfl

/-- A bank is its columns. -/
theorem bank_ext {v w : Vector (BitVec n) k} (h : ∀ j, j < k → column v j = column w j) : v = w := by
  apply Vector.ext
  intro j hj
  have := h j hj
  rwa [column_of_lt v hj, column_of_lt w hj] at this

/-! ### The combiner -/

theorem column_workingRows (cfg : Config) (m : BitVec cfg.k) {r : Nat} (h : r < cfg.k) :
    column (workingRows cfg m) r = if m.getLsbD (cfg.k - 1 - r) then cfg.rows[r] else 0 := by
  rw [workingRows, column_ofFn _ h]
  rfl

/-! ### The recurrence -/

theorem column_accNext_zero (acc w : Vector (BitVec n) k) : column (accNext acc w) 0 = column acc 0 := by
  by_cases h : 0 < k
  · rw [accNext, column_ofFn _ h]; rfl
  · rw [column_of_le _ (by omega), column_of_le _ (by omega)]

theorem column_accNext_one (acc w : Vector (BitVec n) k) (h : 1 < k) :
    column (accNext acc w) 1 = column w 1 ^^^ column w 0 := by
  rw [accNext, column_ofFn _ h]; rfl

theorem column_accNext_succ (acc w : Vector (BitVec n) k) {j : Nat} (h1 : 1 ≤ j) (h : j + 1 < k) :
    column (accNext acc w) (j + 1) = column acc j ^^^ column w (j + 1) := by
  rw [accNext, column_ofFn _ h]
  simp only [Nat.succ_ne_zero, if_false, Nat.add_sub_cancel]
  rw [if_neg (by omega)]

/-! ### The XOR sums -/

@[simp] theorem xorBelow_zero (f : Nat → BitVec n) : xorBelow f 0 = 0 := rfl
theorem xorBelow_succ (f : Nat → BitVec n) (c : Nat) : xorBelow f (c + 1) = xorBelow f c ^^^ f c := rfl

theorem xorBelow_congr {f g : Nat → BitVec n} {c : Nat} (h : ∀ t, t < c → f t = g t) : xorBelow f c = xorBelow g c := by
  induction c with
  | zero => rfl
  | succ c ih => rw [xorBelow_succ, xorBelow_succ, ih fun t ht => h t (by omega), h c (by omega)]

theorem xorBelow_shift (f : Nat → BitVec n) (c : Nat) :
    xorBelow f (c + 1) = f 0 ^^^ xorBelow (fun t => f (t + 1)) c := by
  induction c with
  | zero => simp [xorBelow_succ]
  | succ c ih => rw [xorBelow_succ, ih, xorBelow_succ, BitVec.xor_assoc]

theorem xorRange_of_lt (f : Nat → BitVec n) {a b : Nat} (h : b < a) : xorRange f a b = 0 := by
  rw [xorRange, Nat.sub_eq_zero_of_le (by omega)]; rfl

@[simp] theorem xorRange_self (f : Nat → BitVec n) (a : Nat) : xorRange f a a = f a := by
  simp [xorRange, xorBelow_succ]

theorem xorRange_succ (f : Nat → BitVec n) {a b : Nat} (h : a ≤ b + 1) :
    xorRange f a (b + 1) = xorRange f a b ^^^ f (b + 1) := by
  have hc : b + 1 + 1 - a = (b + 1 - a) + 1 := by omega
  simp only [xorRange, hc, xorBelow_succ]
  congr 2
  omega

theorem xorRange_head (f : Nat → BitVec n) {a b : Nat} (h : a ≤ b) :
    xorRange f a b = f a ^^^ xorRange f (a + 1) b := by
  have hc : b + 1 - a = (b + 1 - (a + 1)) + 1 := by omega
  simp only [xorRange]
  rw [hc, xorBelow_shift]
  congr 1
  apply xorBelow_congr
  intro t _
  congr 1
  omega

theorem xorRange_congr {f g : Nat → BitVec n} {a b : Nat} (h : ∀ r, a ≤ r → r ≤ b → f r = g r) :
    xorRange f a b = xorRange g a b :=
  xorBelow_congr fun t ht => h (a + t) (by omega) (by omega)

/-! ### The pipeline contents -/

theorem column_pipe (cfg : Config) (m : BitVec cfg.k) (t : Nat) {j : Nat} (h : j < cfg.k) :
    column (pipe cfg m t) j = pipeColumn (column (workingRows cfg m)) t j := by
  rw [pipe, column_ofFn _ h]

@[simp] theorem pipeColumn_entry_zero (w : Nat → BitVec n) (t : Nat) : pipeColumn w t 0 = 0 := by simp [pipeColumn]

@[simp] theorem pipeColumn_time_zero (w : Nat → BitVec n) (j : Nat) : pipeColumn w 0 j = 0 := by simp [pipeColumn]

theorem pipeColumn_complete (w : Nat → BitVec n) {t j : Nat} (h1 : 1 ≤ j) (h : j ≤ t) :
    pipeColumn w t j = xorRange w 0 j := by
  rw [pipeColumn, if_neg (by omega), if_neg (by omega), if_pos h]

theorem pipeColumn_filling (w : Nat → BitVec n) {t j : Nat} (h1 : 1 ≤ t) (h : t < j) :
    pipeColumn w t j = xorRange w (j - t + 1) j := by
  rw [pipeColumn, if_neg (by omega), if_neg (by omega), if_neg (by omega)]

/-! ### The in-place loop -/

theorem accInPlaceUpTo_zero (acc w : Vector (BitVec n) k) : accInPlaceUpTo acc w 0 = acc := rfl

theorem accInPlaceUpTo_succ (acc w : Vector (BitVec n) k) {j : Nat} (h : j + 1 < k) :
    accInPlaceUpTo acc w (j + 1) =
      (accInPlaceUpTo acc w j).set (j + 1)
        ((if j = 0 then column w 0 else column (accInPlaceUpTo acc w j) j) ^^^ column w (j + 1)) := by
  simp only [accInPlaceUpTo, dif_pos h]

theorem column_set (v : Vector (BitVec n) k) {j : Nat} (h : j < k) (x : BitVec n) (i : Nat) :
    column (v.set j x) i = if i = j then x else column v i := by
  by_cases hi : i < k
  · rw [column_of_lt _ hi, column_of_lt _ hi, Vector.getElem_set]
    simp only [eq_comm]
  · rw [column_of_le _ (by omega), column_of_le _ (by omega), if_neg (by omega)]

end Sys2Proof.Machine
end

