-- ==== Sys2Proof/Laws/PerInstr.lean ====
section
/-! SUPPORT. Statements about every operation as syntax, one lemma per constructor. -/

namespace Sys2Proof.Laws.RoundTrip

/-- The dispatch word of a well-formed operation names one row of the table, its own (R66), and leaves nothing out. -/
def Statement (i : Instr) : Prop :=
  i.wellFormed = true →
    decodeDispatch (encode i) = .ok i ∧ (firstRow (encode i)).map TableRow.mnemonic = some i.mnemonic

theorem start (state : EncoderState) (term : Bool) : Statement (.start state term) := by
  intro _; cases state <;> cases term <;> decide

theorem accum : Statement .accum := by intro _; decide

theorem present : Statement .present := by intro _; decide

theorem holdIdle (term : Bool) : Statement (.holdIdle term) := by intro _; cases term <;> decide

theorem holdPresenting (term : Bool) : Statement (.holdPresenting term) := by intro _; cases term <;> decide

theorem reservedState (term : Bool) : Statement (.reservedState term) := by intro h; simp [Instr.wellFormed] at h

end Sys2Proof.Laws.RoundTrip
end

