-- ==== Sys2Proof/Laws/Step.lean ====
section
/-! SUPPORT. What one edge can do, said once: the operation selected in each case, and the inversion of `step`. -/

namespace Sys2Proof.Machine

/-! ### The meanings -/

theorem exec_start (st : EncoderState) (t : Bool) (s : State) :
    exec (.start st t) s = .next (s.withRegs (beginEncode s.cfg s.wires.dataInput)) := rfl

theorem exec_accum (s : State) : exec .accum s = .next (s.withRegs (accumulate s.cfg s.regs)) := rfl

theorem exec_present (s : State) : exec .present s = .next (s.withRegs (latchCodeword s.regs)) := rfl

theorem exec_holdIdle (t : Bool) (s : State) : exec (.holdIdle t) s = .next (s.withRegs (holdRegs s.regs)) := rfl

theorem exec_holdPresenting (t : Bool) (s : State) :
    exec (.holdPresenting t) s = .next (s.withRegs (holdRegs s.regs)) := rfl

theorem exec_reservedState (t : Bool) (s : State) : exec (.reservedState t) s = .refused .reservedStateCode := rfl

/-! ### Around the operation -/

@[simp] theorem afterEdge_next (s : State) : afterEdge (.next s) = .next s.consumeInputs := rfl
@[simp] theorem afterEdge_refused (e : Refusal) : afterEdge (.refused e) = .refused e := rfl

theorem assertStart_of_fits (s : State) {m : Nat} (h : m < 2 ^ s.cfg.k) :
    assertStart s m = .next (s.setInputs ⟨true, BitVec.ofNatLT m h⟩) := dif_pos h

theorem assertStart_of_wide (s : State) {m : Nat} (h : 2 ^ s.cfg.k ≤ m) :
    assertStart s m = .refused (.messageTooWide m) := dif_neg (by omega)

theorem term_lastCounter (cfg : Config) : term cfg.lastCounter = true := by simp [term_eq_true_iff]

theorem term_zeroCounter (cfg : Config) : term cfg.zeroCounter = false := by
  have := cfg.two_le_k
  rw [term_eq_false_iff, zeroCounter_val]
  omega

/-! ### Selection -/

/-- The operation the selection table gives for a sampled `start`, a state and a `term` (R66). -/
def selected (start : Bool) (st : EncoderState) (t : Bool) : Instr :=
  match start, st, t with
  | true, st, t => .start st t
  | false, .idle, t => .holdIdle t
  | false, .accumulating, false => .accum
  | false, .accumulating, true => .present
  | false, .presenting, t => .holdPresenting t

theorem decodeDispatch_pack (start : Bool) (st : EncoderState) (t : Bool) :
    decodeDispatch (packDispatch start (stateCode st) t) = .ok (selected start st t) := by
  cases start <;> cases st <;> cases t <;> rfl

theorem packDispatch_fields (d : DispatchWord) : packDispatch (dispStart d) (dispState d) (dispTerm d) = d := by
  revert d; decide

theorem stateCode_of_stateOfCode {c : BitVec 2} {st : EncoderState} (h : stateOfCode c = some st) : stateCode st = c := by
  revert c; cases st <;> decide

/-- A dispatch word that names a state is the one the placed state selects by. -/
theorem placeDispatch_dispatchWord (s : State) {d : DispatchWord} {st : EncoderState}
    (h : stateOfCode (dispState d) = some st) : (s.placeDispatch d).dispatchWord = d := by
  have fields : s.placeDispatch d =
      (s.withRegs { s.regs with
        state := st
        counter := if dispTerm d then s.cfg.lastCounter
          else if term s.regs.counter then s.cfg.zeroCounter else s.regs.counter }).setInputs
        ⟨dispStart d, s.wires.dataInput⟩ := by
    simp only [State.placeDispatch, h]
  have term_placed : term (if dispTerm d then s.cfg.lastCounter
      else if term s.regs.counter then s.cfg.zeroCounter else s.regs.counter) = dispTerm d := by
    cases hd : dispTerm d
    · cases ht : term s.regs.counter
      · simp [ht]
      · simp [term_zeroCounter]
    · simp [term_lastCounter]
  rw [fields]
  show packDispatch (dispStart d) (stateCode st) (term (if dispTerm d then s.cfg.lastCounter
      else if term s.regs.counter then s.cfg.zeroCounter else s.regs.counter)) = d
  rw [term_placed, stateCode_of_stateOfCode h, packDispatch_fields]

theorem step_eq_selected (s : State) :
    step s = afterEdge (exec (selected s.wires.start s.regs.state (term s.regs.counter)) s) := by
  rw [step, State.dispatchWord, decodeDispatch_pack]

theorem step_start {s : State} (h : s.wires.start = true) :
    step s = .next (s.withRegs (beginEncode s.cfg s.wires.dataInput)).consumeInputs := by
  rw [step_eq_selected, h]; rfl

theorem step_accum {s : State} (h : s.wires.start = false) (hs : s.regs.state = .accumulating)
    (hc : s.regs.counter.val < s.cfg.k - 1) :
    step s = .next (s.withRegs (accumulate s.cfg s.regs)).consumeInputs := by
  rw [step_eq_selected, h, hs, (term_eq_false_iff _).mpr hc]; rfl

theorem step_present {s : State} (h : s.wires.start = false) (hs : s.regs.state = .accumulating)
    (hc : s.regs.counter.val = s.cfg.k - 1) :
    step s = .next (s.withRegs (latchCodeword s.regs)).consumeInputs := by
  rw [step_eq_selected, h, hs, (term_eq_true_iff _).mpr hc]; rfl

theorem step_hold {s : State} (h : s.wires.start = false) (hs : s.regs.state ≠ .accumulating) :
    step s = .next (s.withRegs (holdRegs s.regs)).consumeInputs := by
  rw [step_eq_selected, h]
  cases hst : s.regs.state with
  | idle => rfl
  | accumulating => exact absurd hst hs
  | presenting => rfl

/-- The inversion of one edge: what a next state is, and in which case. -/
theorem step_cases {s t : State} (h : step s = .next t) :
    (s.wires.start = true ∧ t = (s.withRegs (beginEncode s.cfg s.wires.dataInput)).consumeInputs) ∨
    (s.wires.start = false ∧ s.regs.state = .accumulating ∧ s.regs.counter.val < s.cfg.k - 1 ∧
      t = (s.withRegs (accumulate s.cfg s.regs)).consumeInputs) ∨
    (s.wires.start = false ∧ s.regs.state = .accumulating ∧ s.regs.counter.val = s.cfg.k - 1 ∧
      t = (s.withRegs (latchCodeword s.regs)).consumeInputs) ∨
    (s.wires.start = false ∧ s.regs.state ≠ .accumulating ∧
      t = (s.withRegs (holdRegs s.regs)).consumeInputs) := by
  have next_inj : ∀ {a b : State}, (Host.Outcome.next a : Result) = .next b → b = a := by
    intro a b e; cases e; rfl
  by_cases hw : s.wires.start = true
  · exact .inl ⟨hw, next_inj ((step_start hw).symm.trans h)⟩
  · have hw : s.wires.start = false := by simpa using hw
    by_cases hs : s.regs.state = .accumulating
    · by_cases hc : s.regs.counter.val < s.cfg.k - 1
      · exact .inr (.inl ⟨hw, hs, hc, next_inj ((step_accum hw hs hc).symm.trans h)⟩)
      · have hc : s.regs.counter.val = s.cfg.k - 1 := by omega
        exact .inr (.inr (.inl ⟨hw, hs, hc, next_inj ((step_present hw hs hc).symm.trans h)⟩))
    · exact .inr (.inr (.inr ⟨hw, hs, next_inj ((step_hold hw hs).symm.trans h)⟩))

/-! ### Runs -/

@[simp] theorem run_zero (s : State) : run 0 s = .next s := rfl

theorem run_succ {s t : State} (h : step s = .next t) (count : Nat) : run (count + 1) s = run count t := by
  simp only [run, h]

end Sys2Proof.Machine
end

