-- ==== Sys2Proof/Tests/Slice0.lean ====
section
/-! SUPPORT. The model's own tests: the check of well-formedness, words decoded from the spec's encodings, one edge per test
vector of 95_test_vectors.md (the expected values are the file's, not the model's), and a witness for the hypotheses of
each statement. -/

namespace Sys2Proof.Tests

open Sys2Proof Sys2Proof.Machine

/-! ### Helpers -/

/-- Configuration M3 of 95_test_vectors.md (the source's own). -/
abbrev m3 : Config := Config.sourceExample

/-- Configuration M2: `k = 2`, the smallest admitted. -/
abbrev m2 : Config where
  k := 2
  n := 4
  rows := #v[0b1010#4, 0b0111#4]
  hasResetOp := true
  two_le_k := by decide
  one_le_n := by decide

/-- Configuration M4 of the source. -/
abbrev m4 : Config where
  k := 4
  n := 9
  rows := #v[0b100000010#9, 0b010011010#9, 0b001000001#9, 0b000110101#9]
  two_le_k := by decide
  one_le_n := by decide

/-- Registers of M3 written as the vectors write them: (state, counter, latched_input, A_1, A_2, output, done). -/
def regs3 (st : EncoderState) (c : Fin 3) (m : BitVec 3) (a1 a2 out : BitVec 6) (done : Bool) (prev : Bool := false) :
    Regs 3 6 := ⟨st, c, m, #v[0, a1, a2], out, done, prev⟩

/-- An M3 encoder with the inputs of its next edge. -/
def state3 (r : Regs 3 6) (start : Bool) (data : BitVec 3) : State := ⟨m3, r, [⟨start, data⟩]⟩

def nextOf : Result → Option State
  | .next s => some s
  | _ => none

def refusalOf : Result → Option Refusal
  | .refused e => some e
  | _ => none

/-- P1 after edges 0, 1, 2, 3 (also V26 to V29). -/
def started : Regs 3 6 := regs3 .accumulating 0 0b101 0 0 0 false true
def filling : Regs 3 6 := regs3 .accumulating 1 0b101 0b100101 0b001110 0 false
def full : Regs 3 6 := regs3 .accumulating 2 0b101 0b100101 0b101011 0 false
def presented : Regs 3 6 := regs3 .presenting 2 0b101 0b100101 0b101011 0b101011 true

/-! ### Well-formedness: the one check, and the ill-formed term it refuses -/

theorem test_wellFormed_refuses_reserved :
    (Instr.reservedState false).wellFormed = false ∧ (Instr.reservedState true).wellFormed = false := by decide
theorem test_wellFormed_accepts : (Instr.start .presenting true).wellFormed = true ∧ Instr.accum.wellFormed = true := by decide

/-! ### Decoding (V35 to V40, words written out bit by bit) -/

theorem test_decode_start : decode [0b00001101#8] = .ok (.start .presenting true, []) := by rfl
theorem test_decode_accum : decode [0b00000010#8, 0b11111111#8] = .ok (.accum, [0b11111111#8]) := by rfl
theorem test_decode_present : decode [0b00000011#8] = .ok (.present, []) := by rfl
theorem test_decode_holdIdle : decode [0b00000001#8] = .ok (.holdIdle true, []) := by rfl
theorem test_decode_holdPresenting : decode [0b00000100#8] = .ok (.holdPresenting false, []) := by rfl
theorem test_decode_reserved : decode [0b00000111#8] = .ok (.reservedState true, []) := by rfl
theorem test_decode_rejects_undefined_state : decode [0b00001110#8] = .error .undefinedStateCode := by rfl
theorem test_decode_rejects_wide : decode [0b00010010#8] = .error .notADispatchWord := by rfl
theorem test_decode_rejects_nothing : decode [] = .error .noWord := by rfl
theorem test_table_words :
    [0b1000, 0b0010, 0b0011, 0b0000, 0b0100, 0b0110].map (decodeTableWord 8) =
      [some (.start .idle false), some .accum, some .present, some (.holdIdle false), some (.holdPresenting false),
        some (.reservedState false)] := by decide

/-- R61: `STIM = 1101` is `start = 1`, message `101` for `k = 3`. -/
theorem test_stimulus_word : packStimulus (⟨true, 0b101#3⟩ : Stimulus 3) = 0b1101#4 := by decide

/-! ### One edge each (V24 to V34) -/

theorem test_start_from_presenting : nextOf (step (state3 presented true 0b011)) =
    some ⟨m3, regs3 .accumulating 0 0b011 0 0 0 false true, []⟩ := by decide
theorem test_start_wins_over_present : nextOf (step (state3 full true 0b110)) =
    some ⟨m3, regs3 .accumulating 0 0b110 0 0 0 false true, []⟩ := by decide
theorem test_accum_first : nextOf (step (state3 started false 0b111)) = some ⟨m3, filling, []⟩ := by decide
/-- The bank that is no pipeline state (95_test_vectors.md, after V19): `A_1 = 111111`, `A_2 = 010101`. -/
theorem test_accum_uses_the_pre_edge_bank :
    nextOf (step (state3 (regs3 .accumulating 0 0b101 0b111111 0b010101 0 false) false 0)) =
      some ⟨m3, regs3 .accumulating 1 0b101 0b100101 0b110001 0 false, []⟩ := by decide
theorem test_present : nextOf (step (state3 full false 0)) = some ⟨m3, presented, []⟩ := by decide
theorem test_present_codeword_zero :
    nextOf (step (state3 (regs3 .accumulating 2 0 0 0 0 false) false 0)) =
      some ⟨m3, regs3 .presenting 2 0 0 0 0 true, []⟩ := by decide
theorem test_hold_idle : nextOf (step State.reset) = some State.reset := by decide
theorem test_hold_presenting : nextOf (step (state3 presented false 0b110)) = some ⟨m3, presented, []⟩ := by decide
theorem test_reserved_refused : refusalOf (exec (.reservedState false) State.reset) = some .reservedStateCode := by decide

/-! ### The combiner, the recurrence and the codeword (V4, V6, V16, V8, V10) -/

theorem test_msb_selects_row_zero : workingRows m3 0b100 = #v[0b100101#6, 0, 0] := by decide
theorem test_recurrence_m4 :
    accNext #v[0, 0b110011000#9, 0b001000001#9, 0b000110101#9] (workingRows m4 0b1111) =
      #v[0, 0b110011000#9, 0b111011001#9, 0b001110100#9] := by decide
theorem test_encode_m3 : [0b001, 0b010, 0b011, 0b101, 0b111].map (encodeMessage m3) =
    [0b001110#6, 0b010111#6, 0b011001#6, 0b101011#6, 0b111100#6] := by decide
theorem test_encode_m4 : encodeMessage m4 0b0101 = 0b010101111#9 := by decide

/-! ### Construction, `assert_start`, the script (V48, V51 to V54, V56, V58) -/

theorem test_construct_refusals :
    [construct 6 [], construct 6 [101, 23, 14], construct 6 [37], construct 0 [0, 0]].map refusalOf =
      [some .emptyMatrix, some (.rowTooWide 0), some .singleRowMatrix, some .zeroWidthCodeword] := by decide
theorem test_construct_source_matrix : nextOf (construct 6 [37, 23, 14]) = some State.reset := by decide
theorem test_message_too_wide : refusalOf (assertStart State.reset 0b1000) = some (.messageTooWide 8) := by decide
theorem test_encode_script_m2 : ∃ t, runScript [.plain (.config 4 [0b1010, 0b0111]), .encode 0b11] =
    .finished (some t) [(0b1101, true)] := ⟨_, rfl⟩

/-! ### `withFetchWord`: the next step runs the word's operation -/

theorem test_fetch_start : (State.reset.withFetchWord 8 0b1000).dispatchWord = 0b1000#4 := by decide
theorem test_fetch_accum : nextOf (step (State.reset.withFetchWord 8 0b0010)) =
    some ⟨m3, regs3 .accumulating 1 0 0 0 0 false, []⟩ := by decide
theorem test_fetch_all_but_reserved :
    [0b1001, 0b1011, 0b1100, 0b0010, 0b0011, 0b0000, 0b0101].map
      (fun w => (State.reset.withFetchWord 8 w).dispatchWord.toNat) =
      [0b1001, 0b1011, 0b1100, 0b0010, 0b0011, 0b0000, 0b0101] := by decide

/-! ### Witnesses: states and operands that meet the hypotheses of the statements -/

theorem witness_start_selected : (state3 full true 0b110).wires.start = true := by decide
theorem witness_accum_selected : let s := state3 filling false 0
    s.regs.counter.val < s.cfg.k - 1 ∧ s.wires.start = false ∧ s.regs.state = .accumulating ∧ s.regs.counter.val = 1 := by
  decide
theorem witness_accum_first_entry : let s := state3 started false 0
    s.regs.counter.val < s.cfg.k - 1 ∧ s.regs.counter.val = 0 ∧ 2 ≤ s.cfg.k - 1 := by decide
theorem witness_present_selected : let s := state3 full false 0
    s.wires.start = false ∧ s.regs.state = .accumulating ∧ s.regs.counter.val = s.cfg.k - 1 ∧ s.regs.done = false := by
  decide
theorem witness_hold_idle_selected : State.reset.wires.start = false ∧ State.reset.regs.state = .idle ∧
    State.reset.regs.done = false := by decide
theorem witness_hold_presenting_selected : let s := state3 presented false 0
    s.wires.start = false ∧ s.regs.state = .presenting ∧ s.regs.done = true := by decide
theorem witness_start_over_present : let s := state3 full true 0b110
    s.wires.start = true ∧ s.regs.state = .accumulating ∧ s.regs.counter.val = s.cfg.k - 1 := by decide
theorem witness_start_clears_output : let s := state3 presented true 0b110
    s.wires.start = true ∧ s.regs.done = true ∧ s.regs.output ≠ 0 := by decide
theorem witness_decoded_step : let s := state3 filling false 0
    decodeDispatch s.dispatchWord = .ok .accum ∧ Instr.accum.wellFormed = true := ⟨rfl, rfl⟩
theorem witness_run_answers : (nextOf (run 2 (state3 started false 0))).isSome = true := by decide
theorem witness_assertStart_answers : (nextOf (assertStart State.reset 7)).isSome = true ∧ 7 < 2 ^ m3.k ∧
    2 ^ m3.k ≤ 8 ∧ State.reset.stimuli.tail = [] := by decide
theorem witness_reset_operation : (State.resetOf m2).cfg.hasResetOp = true ∧ State.reset.cfg.hasResetOp = false ∧
    (nextOf (resetOperation (State.resetOf m2))).isSome = true := by decide
theorem witness_idle_after_step : nextOf (step State.reset) = some State.reset ∧ State.reset.regs.state = .idle := by decide
theorem witness_inv_presenting : RegsInv m3 presented where
  entryZero := by decide
  idle := by decide
  accumulating := by decide
  presenting := fun _ => ⟨by decide, by decide, by decide, by decide, fun j h1 h2 => by
    have : j = 1 ∨ j = 2 := by have : m3.k = 3 := rfl; omega
    rcases this with rfl | rfl <;> decide⟩
  startPrev := by decide
theorem witness_inv_accumulating : RegsInv m3 full where
  entryZero := by decide
  idle := by decide
  accumulating := by decide
  presenting := by intro h; exact absurd h (by decide)
  startPrev := by decide
theorem witness_inv_idle : (Regs.reset m3).state ≠ .presenting ∧ (Regs.reset m3).state = .idle := by decide
theorem witness_inv_step : nextOf (step (state3 full false 0)) = some ⟨m3, presented, []⟩ ∧ (state3 full false 0).Inv :=
  ⟨test_present, witness_inv_accumulating⟩
theorem witness_output_shown : presented.output ≠ 0 ∧ presented.done = true ∧ full.done = false := by decide
theorem witness_noStart : NoStart [(⟨false, 0b111⟩ : Stimulus m3.k), ⟨false, 0⟩] := by decide
/-- The traces and the latency at `d = k-1` and at `d = k`, where their two clauses meet. -/
theorem witness_trace_window : NoStart (List.replicate 2 (⟨false, 0b111⟩ : Stimulus m3.k)) ∧
    (List.replicate 2 (⟨false, 0b111⟩ : Stimulus m3.k)).length = m3.k - 1 := by decide
theorem witness_trace_presented : NoStart (List.replicate 3 (⟨false, 0b111⟩ : Stimulus m3.k)) ∧
    (List.replicate 3 (⟨false, 0b111⟩ : Stimulus m3.k)).length = m3.k := by decide
theorem witness_early_start : let a := List.replicate 2 (⟨false, 0⟩ : Stimulus m3.k)
    let b := List.replicate 3 (⟨false, 0⟩ : Stimulus m3.k)
    NoStart a ∧ NoStart b ∧ a.length < m3.k ∧ b.length ≤ m3.k ∧ b.length = m3.k := by decide
/-- The clause `ticks'.length < k` of the same statement, at its boundary `k-1`. -/
theorem witness_early_start_unfinished : let a := List.replicate 2 (⟨false, 0⟩ : Stimulus m3.k)
    NoStart a ∧ a.length < m3.k ∧ a.length ≤ m3.k ∧ a.length = m3.k - 1 := by decide
theorem witness_allStart : AllStart [(⟨true, 0b101⟩ : Stimulus m3.k), ⟨true, 0b011⟩] := by decide
theorem witness_done_after_run : ((edges m2 (Regs.reset m2) [⟨true, 0b11⟩, ⟨false, 0⟩, ⟨false, 0⟩]).done = true) ∧
    (edges m2 (Regs.reset m2) [⟨true, 0b11⟩, ⟨false, 0⟩, ⟨false, 0⟩]).output ≠ 0 := by decide
theorem witness_restart_while_accumulating : let s := state3 filling true 0b110
    s.wires.start = true ∧ s.regs.state = .accumulating := by decide
theorem witness_agreeing_inputs : List.Forall₂
    (fun x y : Stimulus m3.k => x.start = y.start ∧ (x.start = true → x.dataInput = y.dataInput))
    [⟨true, 0b101⟩, ⟨false, 0b111⟩] [⟨true, 0b101⟩, ⟨false, 0b000⟩] :=
  .cons (by decide) (.cons (by decide) .nil)
theorem witness_post_start : ∃ t, nextOf (step (state3 presented true 0b011)) = some t ∧ t.regs.startPrev = true :=
  ⟨_, test_start_from_presenting, rfl⟩
theorem witness_edge_after_start : (nextOf (step (state3 presented true 0b011))).isSome = true ∧
    (nextOf (step (state3 started false 0))).isSome = true := by decide
theorem witness_bits_in_range : 2 < m3.k ∧ 5 < m3.n ∧ 0 < m3.k ∧ 3 ≤ m3.k ∧ m3.k - 1 ≤ 2 := by decide
theorem witness_zero_row : column (⟨2, 4, #v[0, 7], false, by decide, by decide⟩ : Config).rows 0 = 0 := by decide
theorem witness_same_lane : ∀ j, accEntry (#v[0b01#2, 0b00#2] : Vector (BitVec 2) 2) 1 j =
    accEntry (#v[0b00#2, 0b01#2] : Vector (BitVec 2) 2) 1 j := by
  intro j
  by_cases h : j < 2
  · have : j = 0 ∨ j = 1 := by omega
    rcases this with rfl | rfl <;> decide
  · simp [accEntry, column_of_le _ (Nat.le_of_not_lt h)]
theorem witness_counter_width : (3 : Nat) ≤ 2 ^ 2 ∧ (1 : Fin 3).val < 3 - 1 := by decide
theorem witness_single_row : [37].length = 1 := by decide
theorem witness_zero_width : 2 ≤ [0, 0].length := by decide
theorem witness_row_too_wide : 2 ≤ [37, 64, 14].length ∧ 1 ≤ 6 ∧ 2 ^ 6 ≤ [37, 64, 14][1] ∧
    ∀ (q : Nat) (hq : q < 1), [37, 64, 14][q]'(by simp; omega) < 2 ^ 6 := by
  refine ⟨by decide, by decide, by decide, fun q hq => ?_⟩
  obtain rfl : q = 0 := by omega
  show 37 < 2 ^ 6
  decide
theorem witness_rows_fit : 2 ≤ [63, 63].length ∧ 1 ≤ 6 ∧ ∀ g ∈ [63, 63], g < 2 ^ 6 := by decide
theorem witness_waitDone : (state3 started false 0).regs.state = .accumulating ∧ State.reset.regs.state = .idle ∧
    State.reset.regs.done = false := by decide
theorem witness_wellFormed_words : (Instr.start .accumulating true).wellFormed = true ∧
    decodeDispatch 0b1011#4 = .ok (.start .accumulating true) := ⟨rfl, rfl⟩

end Sys2Proof.Tests
end

-- ==== Outputs over one edge (43_port_interface.md R134) ====
section
/-! PROOFS. What one edge does to the registers, as an answer that every state has, and what that makes of the outputs. -/

namespace Sys2Proof.Machine

/-- Every edge answers, and leaves the registers of one of R80's four operations: `step_cases` together with the totality
of the step (D20). -/
theorem step_answers (s : State) : ∃ r : Regs s.cfg.k s.cfg.n, step s = .next (s.withRegs r).consumeInputs ∧
    ((s.wires.start = true ∧ r = beginEncode s.cfg s.wires.dataInput) ∨
     (s.wires.start = false ∧ s.regs.state = .accumulating ∧ s.regs.counter.val < s.cfg.k - 1 ∧
       r = accumulate s.cfg s.regs) ∨
     (s.wires.start = false ∧ s.regs.state = .accumulating ∧ s.regs.counter.val = s.cfg.k - 1 ∧
       r = latchCodeword s.regs) ∨
     (s.wires.start = false ∧ s.regs.state ≠ .accumulating ∧ r = holdRegs s.regs)) := by
  cases hw : s.wires.start with
  | true => exact ⟨_, step_start hw, .inl ⟨rfl, rfl⟩⟩
  | false =>
    by_cases hs : s.regs.state = .accumulating
    · obtain hc | hc : s.regs.counter.val < s.cfg.k - 1 ∨ s.regs.counter.val = s.cfg.k - 1 := by omega
      · exact ⟨_, step_accum hw hs hc, .inr (.inl ⟨rfl, hs, hc, rfl⟩)⟩
      · exact ⟨_, step_present hw hs hc, .inr (.inr (.inl ⟨rfl, hs, hc, rfl⟩))⟩
    · exact ⟨_, step_hold hw hs, .inr (.inr (.inr ⟨rfl, hs, rfl⟩))⟩

/-- Settles O13, by the four operations of an edge: START clears both outputs, PRESENT sets both, ACCUM and HOLD leave
both as they are. -/
theorem outputsChangeOnlyAtStartAndPresent : Obligations.OutputsChangeOnlyAtStartAndPresent := by
  intro s
  obtain ⟨r, answers, ⟨hw, rfl⟩ | ⟨-, -, -, rfl⟩ | ⟨hw, hs, hc, rfl⟩ | ⟨-, -, rfl⟩⟩ := step_answers s
  case inl => -- START
    exact ⟨_, answers, by simp, fun _ _ => hw, fun _ => .inl ⟨hw, rfl, rfl⟩⟩
  case inr.inr.inl => -- PRESENT
    exact ⟨_, answers, fun _ _ => ⟨hw, hs, hc⟩, by simp, fun _ => .inr ⟨hw, hs, hc, rfl⟩⟩
  case inr.inl | inr.inr.inr => -- ACCUM, HOLD: both outputs are the old ones
    exact ⟨_, answers, by simp +contextual, by simp +contextual, by simp⟩

end Sys2Proof.Machine
end

-- ==== Runs of edges (20_memory.md R42, R49) ====
section
/-! PROOFS. R80's step function case by case, the step as that function, and what a run of edges does and keeps. -/

namespace Sys2Proof.Machine

/-! ### The step function of R80 -/

theorem edge_start {cfg : Config} {r : Regs cfg.k cfg.n} {x : Stimulus cfg.k} (hx : x.start = true) :
    edge cfg r x = beginEncode cfg x.dataInput := by
  rw [edge, if_pos hx, hx]
  rfl

theorem edge_accum {cfg : Config} {r : Regs cfg.k cfg.n} {x : Stimulus cfg.k} (hx : x.start = false)
    (hs : r.state = .accumulating) (hc : r.counter.val < cfg.k - 1) : edge cfg r x = accumulate cfg r := by
  rw [edge, if_neg (by simp [hx]), if_pos ⟨hs, hc⟩, hx]
  rfl

theorem edge_present {cfg : Config} {r : Regs cfg.k cfg.n} {x : Stimulus cfg.k} (hx : x.start = false)
    (hs : r.state = .accumulating) (hc : r.counter.val = cfg.k - 1) : edge cfg r x = latchCodeword r := by
  rw [edge, if_neg (by simp [hx]), if_neg (by omega), if_pos ⟨hs, hc⟩, hx]
  rfl

theorem edge_hold {cfg : Config} {r : Regs cfg.k cfg.n} {x : Stimulus cfg.k} (hx : x.start = false)
    (hs : r.state ≠ .accumulating) : edge cfg r x = holdRegs r := by
  rw [edge, if_neg (by simp [hx]), if_neg (by simp [hs]), if_neg (by simp [hs]), hx]
  rfl

/-- The step through the dispatch word performs R80's step function on the registers and consumes the sampled inputs. -/
theorem step_eq_edge (s : State) : step s = .next (s.withRegs (edge s.cfg s.regs s.wires)).consumeInputs := by
  obtain ⟨r, answers, ⟨hw, rfl⟩ | ⟨hw, hs, hc, rfl⟩ | ⟨hw, hs, hc, rfl⟩ | ⟨hw, hs, rfl⟩⟩ := step_answers s
  · rw [answers, edge_start hw]
  · rw [answers, edge_accum hw hs hc]
  · rw [answers, edge_present hw hs hc]
  · rw [answers, edge_hold hw hs]

/-! ### What a run does -/

@[simp] theorem edges_nil (cfg : Config) (r : Regs cfg.k cfg.n) : edges cfg r [] = r := rfl

@[simp] theorem edges_cons (cfg : Config) (r : Regs cfg.k cfg.n) (x : Stimulus cfg.k) (xs : List (Stimulus cfg.k)) :
    edges cfg r (x :: xs) = edges cfg (edge cfg r x) xs := rfl

theorem step_cons (cfg : Config) (r : Regs cfg.k cfg.n) (x : Stimulus cfg.k) (xs : List (Stimulus cfg.k)) :
    step ⟨cfg, r, x :: xs⟩ = .next ⟨cfg, edge cfg r x, xs⟩ := step_eq_edge _

/-- Settles O29, by induction on the inputs: the first of them is the first edge's, and the rest run from the registers
that edge leaves. -/
theorem runIsTheEdgesInOrder : Obligations.RunIsTheEdgesInOrder := by
  intro cfg r xs rest
  induction xs generalizing r with
  | nil => rfl
  | cons x xs ih =>
    rw [List.length_cons, List.cons_append, run_succ (step_cons cfg r x (xs ++ rest)), ih, edges_cons]

/-! ### What a run keeps -/

/-- What every answering edge keeps, every answering run keeps. -/
theorem run_preserves {P : State → Prop} (step_preserves : ∀ s t : State, P s → step s = .next t → P t)
    {count : Nat} {s t : State} (hs : P s) (h : run count s = .next t) : P t := by
  induction count generalizing s with
  | zero =>
    cases h
    exact hs
  | succ count ih =>
    have first := step_eq_edge s
    rw [run_succ first] at h
    exact ih (step_preserves _ _ hs first) h

theorem step_cfg {s t : State} (h : step s = .next t) : t.cfg = s.cfg := by
  cases (step_eq_edge s).symm.trans h
  simp

theorem run_cfg {count : Nat} {s t : State} (h : run count s = .next t) : t.cfg = s.cfg :=
  run_preserves (P := fun u => u.cfg = s.cfg) (fun _ _ kept answers => (step_cfg answers).trans kept) rfl h

theorem assertStart_cfg {s t : State} {m : Nat} (h : assertStart s m = .next t) : t.cfg = s.cfg := by
  obtain fits | wide := Nat.lt_or_ge m (2 ^ s.cfg.k)
  · cases (assertStart_of_fits s fits).symm.trans h
    simp
  · cases (assertStart_of_wide s wide).symm.trans h

theorem resetOperation_cfg {s t : State} (h : resetOperation s = .next t) : t.cfg = s.cfg := by
  rw [resetOperation] at h
  split at h
  · cases h
    simp
  · cases h

/-- Settles O12: an edge and each of the two operations answers a state over the configuration it was given, and a run
keeps what its edges keep. -/
theorem configurationIsNeverWritten : Obligations.ConfigurationIsNeverWritten :=
  ⟨fun _ _ _ => run_cfg, fun _ _ _ => assertStart_cfg, fun _ _ => resetOperation_cfg⟩

end Sys2Proof.Machine
end

-- ==== Selection and the sampling of data_input (30_encoding.md R66, R70) ====
section
/-! PROOFS. That every edge selects one well-formed operation, and that `data_input` reaches the registers through START
alone. -/

namespace Sys2Proof.Machine

/-! ### Selection -/

/-- The dispatch word of a state decodes to the selection by its three fields: no state makes the decoder refuse. -/
theorem decodeDispatch_dispatchWord (s : State) :
    decodeDispatch s.dispatchWord = .ok (selected s.wires.start s.regs.state (term s.regs.counter)) :=
  decodeDispatch_pack _ _ _

theorem selected_start (st : EncoderState) (t : Bool) : selected true st t = .start st t := rfl

theorem selected_accum : selected false .accumulating false = .accum := rfl

theorem selected_present : selected false .accumulating true = .present := rfl

theorem selected_idle (t : Bool) : selected false .idle t = .holdIdle t := rfl

theorem selected_presenting (t : Bool) : selected false .presenting t = .holdPresenting t := rfl

/-- The reserved row is never selected. -/
theorem selected_wellFormed (start : Bool) (st : EncoderState) (t : Bool) : (selected start st t).wellFormed = true := by
  cases start with
  | true => rfl
  | false =>
    cases st with
    | idle => rfl
    | accumulating => cases t <;> rfl
    | presenting => rfl

/-- Settles O7, row by row of the selection table: the operation is the one `selected` gives for the sampled `start`, the
state and `term`. -/
theorem selectionTableIsComplete : Obligations.SelectionTableIsComplete := by
  intro s
  refine ⟨_, decodeDispatch_dispatchWord s, selected_wellFormed _ _ _, ?_, ?_, ?_, ?_, ?_⟩
  · intro hw -- START
    rw [hw, selected_start, term]
  · intro hw hs hc -- ACCUM
    rw [hw, hs, (term_eq_false_iff _).mpr hc, selected_accum]
  · intro hw hs hc -- PRESENT
    rw [hw, hs, (term_eq_true_iff _).mpr hc, selected_present]
  · intro hw hs -- HOLD in Idle
    exact ⟨_, by rw [hw, hs, selected_idle]⟩
  · intro hw hs -- HOLD in Presenting
    exact ⟨_, by rw [hw, hs, selected_presenting]⟩

/-! ### The sampling of `data_input` -/

/-- An edge with `start = 0` reads nothing of its inputs but `start`: it is the edge of a tick. -/
theorem edge_of_not_start {cfg : Config} (r : Regs cfg.k cfg.n) {x : Stimulus cfg.k} (hx : x.start = false) :
    edge cfg r x = edge cfg r tickStimulus := by
  simp [edge, hx, tickStimulus]

/-- One edge does not tell apart two inputs that agree on `start` and, at a start edge, on the message. -/
theorem edge_congr_of_agree {cfg : Config} (r : Regs cfg.k cfg.n) {x y : Stimulus cfg.k} (start_eq : x.start = y.start)
    (message_eq : x.start = true → x.dataInput = y.dataInput) : edge cfg r x = edge cfg r y := by
  cases hx : x.start with
  | true => rw [edge_start hx, edge_start (start_eq.symm.trans hx), message_eq hx]
  | false => rw [edge_of_not_start r hx, edge_of_not_start r (start_eq.symm.trans hx)]

/-- Settles O36, by induction on the two input lists together: the first edge leaves both runs the same registers, and the
rest run from those. -/
theorem dataInputIsIgnoredWithoutStart : Obligations.DataInputIsIgnoredWithoutStart := by
  intro cfg r xs ys agree
  induction agree generalizing r with
  | nil =>
    intro d hd
    obtain rfl : d = 0 := by simpa using hd
    exact ⟨r, rfl, rfl⟩
  | @cons x y xs ys heads_agree _ ih =>
    obtain ⟨start_eq, message_eq⟩ := heads_agree
    intro d hd
    cases d with
    | zero => exact ⟨r, rfl, rfl⟩
    | succ d =>
      have same_edge : edge cfg r x = edge cfg r y := edge_congr_of_agree r start_eq message_eq
      obtain ⟨r', run_xs, run_ys⟩ := ih (edge cfg r x) d (by simpa using hd)
      refine ⟨r', (run_succ (step_cons cfg r x xs) d).trans run_xs, (run_succ (step_cons cfg r y ys) d).trans ?_⟩
      rw [← same_edge]
      exact run_ys

end Sys2Proof.Machine
end

-- ==== The controller (40_controller.md R80 to R87, R92) ====
section
/-! PROOFS. The four operations of an edge with their frames, the transition table of `state`, the width of the counter,
and `start` held over several edges. -/

namespace Sys2Proof.Machine

/-! ### The step as R80 writes it -/

/-- Settles O8: `step_eq_edge`, whose case split is R80's, with the components of the answered state written out. -/
theorem stepIsTheControllerOfRuleEighty : Obligations.StepIsTheControllerOfRuleEighty := step_eq_edge

/-! ### START -/

@[simp] theorem accEntry_zeroBank (n k i j : Nat) : accEntry (zeroBank n k) i j = false := by
  simp [accEntry]

/-- Settles O1: the registers are `beginEncode`'s, of which every field is fixed by the message. -/
theorem startBeginsAnEncodeFromAnyState : Obligations.StartBeginsAnEncodeFromAnyState := fun s =>
  ⟨beginEncode s.cfg s.wires.dataInput, accEntry_zeroBank _ _, rfl, rfl, rfl, rfl, rfl, rfl,
    fun st t => exec_start st t s, step_start⟩

/-- Settles O9: `start = 1` selects START whatever the state and the counter are, and START zeroes the bank. -/
theorem startWinsOverPresent : Obligations.StartWinsOverPresent := fun _ hw _ _ =>
  ⟨_, step_start hw, rfl, rfl, rfl, rfl, rfl, column_zeroBank⟩

/-! ### ACCUM -/

/-- R100 bit by bit: a bit of a working row is the bit of the row, masked by the row's message bit. -/
theorem accEntry_workingRows (cfg : Config) (m : BitVec cfg.k) {r : Nat} (hr : r < cfg.k) (i : Nat) :
    accEntry (workingRows cfg m) i r = ((column cfg.rows r).getLsbD i && m.getLsbD (cfg.k - 1 - r)) := by
  rw [accEntry, column_workingRows cfg m hr, column_of_lt cfg.rows hr]
  cases m.getLsbD (cfg.k - 1 - r) with
  | true => simp
  | false => simp

theorem accEntry_accNext_zero {n k : Nat} (acc w : Vector (BitVec n) k) (i : Nat) :
    accEntry (accNext acc w) i 0 = accEntry acc i 0 := by
  rw [accEntry, column_accNext_zero, accEntry]

theorem accEntry_accNext_one {n k : Nat} (acc w : Vector (BitVec n) k) (i : Nat) (hk : 1 < k) :
    accEntry (accNext acc w) i 1 = (accEntry w i 1 ^^ accEntry w i 0) := by
  rw [accEntry, column_accNext_one acc w hk, BitVec.getLsbD_xor, accEntry, accEntry]

theorem accEntry_accNext {n k : Nat} (acc w : Vector (BitVec n) k) (i : Nat) {j : Nat} (hj : 2 ≤ j) (hk : j < k) :
    accEntry (accNext acc w) i j = (accEntry acc i (j - 1) ^^ accEntry w i j) := by
  obtain ⟨p, rfl⟩ : ∃ p, j = p + 1 := ⟨j - 1, by omega⟩
  rw [accEntry, column_accNext_succ acc w (by omega) hk, BitVec.getLsbD_xor]
  rfl

/-- Settles O2: the recurrence on one bit position, with each working-row bit read off by R100. -/
theorem accumAdvancesEveryChainByOneEntry : Obligations.AccumAdvancesEveryChainByOneEntry := by
  intro s hc
  have two_le := s.cfg.two_le_k
  refine ⟨accumulate s.cfg s.regs, exec_accum s, nextCounter_val _ hc, fun i _ => ⟨?_, ?_, fun j hj hk => ?_⟩,
    rfl, rfl, rfl, rfl, rfl, fun hw hs => step_accum hw hs hc⟩
  · exact accEntry_accNext_zero _ _ i
  · rw [accumulate_acc, accEntry_accNext_one _ _ i two_le, accEntry_workingRows _ _ two_le,
      accEntry_workingRows _ _ (by omega)]
  · rw [accumulate_acc, accEntry_accNext _ _ i hj hk, accEntry_workingRows _ _ hk]

/-! ### PRESENT and HOLD -/

/-- Settles O3: the registers are `latchCodeword`'s, whose `output` is the pre-edge column `A_{k-1}`. -/
theorem presentLatchesTheLastColumn : Obligations.PresentLatchesTheLastColumn := fun s =>
  ⟨latchCodeword s.regs, exec_present s, fun _ _ => rfl, rfl, rfl, rfl, rfl, rfl, rfl, step_present⟩

/-- Settles O4: both rows of HOLD leave the same registers, `holdRegs`. -/
theorem holdChangesOnlyStartPrev : Obligations.HoldChangesOnlyStartPrev := fun s =>
  ⟨holdRegs s.regs, fun t => ⟨exec_holdIdle t s, exec_holdPresenting t s⟩, rfl, rfl, rfl, rfl, rfl, rfl, rfl, step_hold⟩

/-! ### The transition table of `state` -/

/-- Settles O10, row by row: the operation is the one `selected` gives, the next state the one its step lemma gives. -/
theorem transitionTableOfState : Obligations.TransitionTableOfState := by
  intro s
  have decoded := decodeDispatch_dispatchWord s
  cases hw : s.wires.start with
  | true =>
    rw [hw, selected_start] at decoded
    refine ⟨_, _, decoded, step_start hw, ?_⟩
    cases s.regs.state with
    | idle | accumulating | presenting => exact ⟨⟨_, rfl⟩, rfl⟩
  | false =>
    cases hs : s.regs.state with
    | idle =>
      rw [hw, hs, selected_idle] at decoded
      exact ⟨_, _, decoded, step_hold hw (by simp [hs]), ⟨_, rfl⟩, hs⟩
    | accumulating =>
      obtain hc | hc : s.regs.counter.val < s.cfg.k - 1 ∨ s.regs.counter.val = s.cfg.k - 1 := by omega
      · rw [hw, hs, (term_eq_false_iff _).mpr hc, selected_accum] at decoded
        exact ⟨_, _, decoded, step_accum hw hs hc, fun _ => ⟨rfl, hs⟩, fun last => by omega⟩
      · rw [hw, hs, (term_eq_true_iff _).mpr hc, selected_present] at decoded
        exact ⟨_, _, decoded, step_present hw hs hc, fun window => by omega, fun _ => ⟨rfl, rfl⟩⟩
    | presenting =>
      rw [hw, hs, selected_presenting] at decoded
      exact ⟨_, _, decoded, step_hold hw (by simp [hs]), ⟨_, rfl⟩, hs⟩

/-! ### The width of the counter (D5) -/

theorem counterBits_toNat {width k : Nat} (c : Fin k) (fits : k ≤ 2 ^ width) : (counterBits width c).toNat = c.val := by
  rw [counterBits, BitVec.toNat_ofNat, Nat.mod_eq_of_lt (c.isLt.trans_le fits)]

/-- Settles O28: the width holds every value of the counter, so that reading is exact, and the increment is the
counter's own. -/
theorem counterFitsEveryAdmissibleWidth : Obligations.CounterFitsEveryAdmissibleWidth := by
  intro width k c fits
  refine ⟨counterBits_toNat c fits, fun hc => ⟨?_, nextCounter_val c hc⟩⟩
  rw [counterBits, nextCounter_val c hc, BitVec.ofNat_add]
  rfl

/-! ### `start` held (R92) -/

theorem edges_append (cfg : Config) (r : Regs cfg.k cfg.n) (xs ys : List (Stimulus cfg.k)) :
    edges cfg r (xs ++ ys) = edges cfg (edges cfg r xs) ys := by
  induction xs generalizing r with
  | nil => rfl
  | cons x xs ih => exact ih (edge cfg r x)

/-- A run whose last edge is a start edge leaves START's registers, whatever the edges before it did. -/
theorem run_append_start (cfg : Config) (r : Regs cfg.k cfg.n) (xs rest : List (Stimulus cfg.k)) (m : BitVec cfg.k) :
    run (xs.length + 1) ⟨cfg, r, xs ++ ⟨true, m⟩ :: rest⟩ = .next ⟨cfg, beginEncode cfg m, rest⟩ := by
  have in_order := runIsTheEdgesInOrder cfg r (xs ++ [⟨true, m⟩]) rest
  rwa [List.length_append, List.length_singleton, List.append_assoc, List.singleton_append, edges_append, edges_cons,
    edges_nil, edge_start rfl] at in_order

/-- Settles O35: the last of the start edges overwrites every register, so that the earlier ones leave no trace. -/
theorem heldStartRestartsAtEveryEdge : Obligations.HeldStartRestartsAtEveryEdge := fun cfg r xs rest m _ =>
  ⟨_, run_append_start cfg r xs rest m, rfl, rfl, column_zeroBank, rfl, rfl, rfl, rfl⟩

end Sys2Proof.Machine
end

-- ==== The combiner (41_combiner.md R100, R104) ====
section
/-! PROOFS. What a working row is, bit by bit and as a whole row, and the messages and rows of R104. -/

namespace Sys2Proof.Machine

/-- Settles O20: `accEntry_workingRows`, which reads bit `i` of column `r` under the name `accEntry`. -/
theorem workingRowIsRowAndMessageBit : Obligations.WorkingRowIsRowAndMessageBit := fun cfg m _ i hr _ =>
  accEntry_workingRows cfg m hr i

/-! ### Whole rows -/

/-- R100 for a whole row, outside the bank too: there the row of `G` and the working row both read 0. -/
theorem column_workingRows_eq_ite (cfg : Config) (m : BitVec cfg.k) (r : Nat) :
    column (workingRows cfg m) r = if m.getLsbD (cfg.k - 1 - r) then column cfg.rows r else 0 := by
  obtain inside | outside := Nat.lt_or_ge r cfg.k
  · rw [column_workingRows cfg m inside, column_of_lt cfg.rows inside]
  · rw [column_of_le _ outside, column_of_le _ outside, ite_self]

theorem column_workingRows_zero (cfg : Config) (r : Nat) : column (workingRows cfg 0) r = 0 := by
  rw [column_workingRows_eq_ite, if_neg (by simp)]

theorem column_workingRows_allOnes (cfg : Config) {r : Nat} (hr : r < cfg.k) :
    column (workingRows cfg (BitVec.allOnes cfg.k)) r = column cfg.rows r := by
  have paired_bit_in_range : cfg.k - 1 - r < cfg.k := by omega
  rw [column_workingRows_eq_ite, if_pos (by simp [paired_bit_in_range])]

/-- Rows and message bits pair one to one (`r` with `k-1-r`), so that one bit selects one row. -/
theorem column_workingRows_twoPow (cfg : Config) {r r' : Nat} (hr : r < cfg.k) (hr' : r' < cfg.k) :
    column (workingRows cfg (BitVec.twoPow cfg.k (cfg.k - 1 - r))) r' = if r' = r then column cfg.rows r else 0 := by
  rw [column_workingRows_eq_ite, BitVec.getLsbD_twoPow]
  obtain rfl | other := eq_or_ne r' r
  · have paired_bit_in_range : cfg.k - 1 - r' < cfg.k := by omega
    simp [paired_bit_in_range]
  · have other_bit : cfg.k - 1 - r ≠ cfg.k - 1 - r' := by omega
    simp [other, other_bit]

theorem column_workingRows_of_row_zero (cfg : Config) (m : BitVec cfg.k) {r : Nat} (zero_row : column cfg.rows r = 0) :
    column (workingRows cfg m) r = 0 := by
  rw [column_workingRows_eq_ite, zero_row, ite_self]

/-- Settles O21: each of R104's cases fixes the message bit, or the row, that R100 reads. -/
theorem workingRowCornerCases : Obligations.WorkingRowCornerCases := fun cfg =>
  ⟨column_workingRows_zero cfg, fun _ => column_workingRows_allOnes cfg, fun _ _ => column_workingRows_twoPow cfg,
    fun m _ => column_workingRows_of_row_zero cfg m⟩

end Sys2Proof.Machine
end

-- ==== The recurrence and the codeword (42_accumulator.md R111, R114, R116) ====
section
/-! PROOFS. The recurrence column by column, the advance of the pipeline by one entry per ACCUM edge, and the codeword as
the GF(2) product of the message and the matrix. -/

namespace Sys2Proof.Machine

/-! ### The recurrence in column form -/

/-- Settles O22, by the three kinds of column: entry 0, entry 1, and the entries that read their predecessor. -/
theorem recurrenceInColumnForm : Obligations.RecurrenceInColumnForm := by
  intro n k acc w
  refine ⟨column_accNext_zero acc w, column_accNext_one acc w, fun j two_le hj => ?_⟩
  obtain ⟨p, rfl⟩ : ∃ p, j = p + 1 := ⟨j - 1, by omega⟩
  exact column_accNext_succ acc w (by omega) hj

/-! ### The pipeline contents -/

theorem xorRange_zero_one {n : Nat} (f : Nat → BitVec n) : xorRange f 0 1 = f 0 ^^^ f 1 := by
  rw [xorRange_succ f (Nat.zero_le _), xorRange_self]

/-- One ACCUM edge moves the partial sum of entry `j` to entry `j+1` and adds that entry's row: the complete sums stay
complete, and a sum that is still filling up keeps its least row. -/
theorem pipeColumn_succ_succ {n : Nat} (w : Nat → BitVec n) (t : Nat) {j : Nat} (hj : 1 ≤ j) :
    pipeColumn w (t + 1) (j + 1) = pipeColumn w t j ^^^ w (j + 1) := by
  obtain rfl | started := Nat.eq_zero_or_pos t
  · rw [pipeColumn_time_zero, pipeColumn_filling w le_rfl (by omega)]
    simp
  · obtain filling | complete := Nat.lt_or_ge t j
    · rw [pipeColumn_filling w started filling, pipeColumn_filling w (by omega) (by omega), Nat.add_sub_add_right,
        xorRange_succ w (by omega)]
    · rw [pipeColumn_complete w hj complete, pipeColumn_complete w (by omega) (by omega), xorRange_succ w (by omega)]

/-- R114: the recurrence takes `Pipe(m, t)` to `Pipe(m, t+1)`. -/
theorem accNext_pipe (cfg : Config) (m : BitVec cfg.k) (t : Nat) :
    accNext (pipe cfg m t) (workingRows cfg m) = pipe cfg m (t + 1) := by
  apply bank_ext
  intro j hj
  match j with
  | 0 => rw [column_accNext_zero, column_pipe cfg m t hj, column_pipe cfg m _ hj, pipeColumn_entry_zero,
      pipeColumn_entry_zero]
  | 1 => rw [column_accNext_one _ _ hj, column_pipe cfg m _ hj, pipeColumn_complete _ le_rfl (by omega),
      xorRange_zero_one, BitVec.xor_comm]
  | p + 2 => rw [column_accNext_succ _ _ (by omega) hj, column_pipe cfg m t (by omega), column_pipe cfg m _ hj,
      pipeColumn_succ_succ _ _ (by omega)]

/-- R114 at `t = 0`: the bank START leaves. -/
theorem pipe_zero (cfg : Config) (m : BitVec cfg.k) : pipe cfg m 0 = zeroBank cfg.n cfg.k := by
  apply bank_ext
  intro j hj
  rw [column_pipe cfg m 0 hj, pipeColumn_time_zero, column_zeroBank]

/-- R115: the last column is the codeword from the last ACCUM edge of the window on. -/
theorem column_pipe_last (cfg : Config) (m : BitVec cfg.k) :
    column (pipe cfg m (cfg.k - 1)) (cfg.k - 1) = encodeMessage cfg m := by
  have two_le := cfg.two_le_k
  rw [column_pipe cfg m _ (by omega), pipeColumn_complete _ (by omega) le_rfl, encodeMessage]

/-! ### The codeword as a sum over all rows -/

theorem xorBelow_eq_foldl {n : Nat} (f : Nat → BitVec n) (c : Nat) :
    xorBelow f c = (List.range c).foldl (fun sum r => sum ^^^ f r) 0 := by
  induction c with
  | zero => rfl
  | succ c ih => rw [xorBelow_succ, ih, List.range_succ, List.foldl_append, List.foldl_cons, List.foldl_nil]

theorem encodeMessage_eq_xorBelow (cfg : Config) (m : BitVec cfg.k) :
    encodeMessage cfg m = xorBelow (column (workingRows cfg m)) cfg.k := by
  have two_le := cfg.two_le_k
  simp only [encodeMessage, xorRange, Nat.zero_add, Nat.sub_zero]
  rw [Nat.sub_add_cancel (by omega)]

theorem encodeMessage_eq_foldl_rows (cfg : Config) (m : BitVec cfg.k) :
    encodeMessage cfg m =
      (List.range cfg.k).foldl (fun c r => c ^^^ (if m.getLsbD (cfg.k - 1 - r) then column cfg.rows r else 0)) 0 := by
  simp only [encodeMessage_eq_xorBelow, xorBelow_eq_foldl, column_workingRows_eq_ite]

/-- Bit `i` of the codeword: taking bit `i` commutes with each step of the sum over the rows. -/
theorem getLsbD_encodeMessage (cfg : Config) (m : BitVec cfg.k) (i : Nat) :
    (encodeMessage cfg m).getLsbD i =
      (List.range cfg.k).foldl
        (fun b r => b ^^ ((column cfg.rows r).getLsbD i && m.getLsbD (cfg.k - 1 - r))) false := by
  have bit_of_step : ∀ (c : BitVec cfg.n) (r : Nat),
      (c.getLsbD i ^^ ((column cfg.rows r).getLsbD i && m.getLsbD (cfg.k - 1 - r))) =
        (c ^^^ (if m.getLsbD (cfg.k - 1 - r) then column cfg.rows r else 0)).getLsbD i := by
    intro c r
    cases m.getLsbD (cfg.k - 1 - r) with
    | true => simp
    | false => simp
  have bit_of_zero : (0 : BitVec cfg.n).getLsbD i = false := by simp
  rw [encodeMessage_eq_foldl_rows, ← bit_of_zero]
  exact (List.foldl_hom (fun c : BitVec cfg.n => c.getLsbD i) bit_of_step).symm

/-- Settles O26: the sum over the rows as whole rows and bit by bit, and the column where the pipeline leaves it. -/
theorem codewordIsTheMatrixProduct : Obligations.CodewordIsTheMatrixProduct := fun cfg m =>
  ⟨rfl, encodeMessage_eq_foldl_rows cfg m, fun i _ => getLsbD_encodeMessage cfg m i, column_pipe_last cfg m⟩

end Sys2Proof.Machine
end

-- ==== The in-place reading (42_accumulator.md R120) ====
section
/-! PROOFS. The in-place evaluation column by column, its edge case by case, and the simulation that makes its ports those
of the pipeline. -/

namespace Sys2Proof.Machine

/-! ### The in-place recurrence -/

/-- The loop carries the sum from entry to entry, so that every entry it has passed is complete, whatever the bank held. -/
theorem column_accInPlaceUpTo {n k : Nat} (acc w : Vector (BitVec n) k) {c j : Nat} (one_le : 1 ≤ j) (passed : j ≤ c)
    (inside : c < k) : column (accInPlaceUpTo acc w c) j = xorRange (column w) 0 j := by
  induction c generalizing j with
  | zero => omega
  | succ c ih =>
    rw [accInPlaceUpTo_succ acc w inside, column_set _ inside]
    obtain rfl | earlier := Nat.eq_or_lt_of_le passed
    · rw [if_pos rfl, xorRange_succ _ (Nat.zero_le _)]
      obtain rfl | later := Nat.eq_zero_or_pos c
      · rw [if_pos rfl, xorRange_self]
      · rw [if_neg (by omega), ih later le_rfl (by omega)]
    · rw [if_neg (by omega), ih one_le (by omega) (by omega)]

/-- R120: one in-place edge completes every column. -/
theorem column_accNextInPlace {n k : Nat} (acc w : Vector (BitVec n) k) {j : Nat} (one_le : 1 ≤ j) (inside : j < k) :
    column (accNextInPlace acc w) j = xorRange (column w) 0 j :=
  column_accInPlaceUpTo acc w one_le (by omega) (by omega)

/-! ### The in-place edge -/

theorem edgeInPlace_accum {cfg : Config} {r : Regs cfg.k cfg.n} {x : Stimulus cfg.k} (hx : x.start = false)
    (hs : r.state = .accumulating) (hc : r.counter.val < cfg.k - 1) :
    edgeInPlace cfg r x =
      { accumulate cfg r with acc := accNextInPlace r.acc (workingRows cfg r.latchedInput) } := by
  rw [edgeInPlace, if_pos ⟨hx, hs, hc⟩, edge_accum hx hs hc]

/-- Outside ACCUM the two readings are the same edge. -/
theorem edgeInPlace_of_not_accum {cfg : Config} {r : Regs cfg.k cfg.n} {x : Stimulus cfg.k}
    (h : ¬ (x.start = false ∧ r.state = .accumulating ∧ r.counter.val < cfg.k - 1)) :
    edgeInPlace cfg r x = edge cfg r x := if_neg h

/-! ### The simulation -/

/-- The pipeline's registers `a` and the in-place machine's `b` at the same edge: every register but the bank agrees.
During an encode the pipeline's bank is `Pipe(m, counter)`, and the in-place machine's last column is the codeword from
the first ACCUM edge on; so both show the codeword at PRESENT, where `counter = k-1 >= 1`. -/
structure InPlaceSim (cfg : Config) (a b : Regs cfg.k cfg.n) : Prop where
  agree : { a with acc := b.acc } = b
  pipeline : a.state = .accumulating → a.acc = pipe cfg a.latchedInput a.counter.val
  complete : a.state = .accumulating → 1 ≤ a.counter.val →
    column b.acc (cfg.k - 1) = encodeMessage cfg a.latchedInput

namespace InPlaceSim

variable {cfg : Config} {a b : Regs cfg.k cfg.n}

theorem reset (cfg : Config) : InPlaceSim cfg (Regs.reset cfg) (Regs.reset cfg) where
  agree := rfl
  pipeline := by simp
  complete := by simp

theorem start (m : BitVec cfg.k) : InPlaceSim cfg (beginEncode cfg m) (beginEncode cfg m) where
  agree := rfl
  pipeline _ := (pipe_zero cfg m).symm
  complete _ counted := absurd counted (by simp)

/-- ACCUM: the pipeline advances by one entry; the in-place loop completes the last column. -/
theorem accum (sim : InPlaceSim cfg a b) (hs : a.state = .accumulating) (hc : a.counter.val < cfg.k - 1) :
    InPlaceSim cfg (accumulate cfg a)
      { accumulate cfg b with acc := accNextInPlace b.acc (workingRows cfg b.latchedInput) } := by
  have same_message : b.latchedInput = a.latchedInput := by rw [← sim.agree]
  refine ⟨?_, fun _ => ?_, fun _ _ => ?_⟩
  · rw [← sim.agree]
    rfl
  · rw [accumulate_acc, sim.pipeline hs, accNext_pipe, accumulate_counter, nextCounter_val _ hc, accumulate_latchedInput]
  · rw [column_accNextInPlace _ _ (by omega) (by omega), same_message]
    rfl

/-- PRESENT: both last columns are the codeword, so that the outputs agree. -/
theorem present (sim : InPlaceSim cfg a b) (hs : a.state = .accumulating) (hc : a.counter.val = cfg.k - 1) :
    InPlaceSim cfg (latchCodeword a) (latchCodeword b) := by
  have two_le := cfg.two_le_k
  have same_codeword : column a.acc (cfg.k - 1) = column b.acc (cfg.k - 1) := by
    rw [sim.complete hs (by omega), sim.pipeline hs, hc, column_pipe_last]
  refine ⟨?_, by simp, by simp⟩
  rw [latchCodeword, same_codeword, ← sim.agree]
  rfl

theorem hold (sim : InPlaceSim cfg a b) (hs : a.state ≠ .accumulating) :
    InPlaceSim cfg (holdRegs a) (holdRegs b) := by
  refine ⟨?_, fun accumulating => absurd accumulating hs, fun accumulating => absurd accumulating hs⟩
  rw [← sim.agree]
  rfl

/-- Every edge keeps the simulation: both machines select the same operation, since `state` and `counter` agree. -/
theorem step (sim : InPlaceSim cfg a b) (x : Stimulus cfg.k) :
    InPlaceSim cfg (edge cfg a x) (edgeInPlace cfg b x) := by
  have same_state : b.state = a.state := by rw [← sim.agree]
  have same_counter : b.counter = a.counter := by rw [← sim.agree]
  cases hx : x.start with
  | true =>
    rw [edgeInPlace_of_not_accum (by simp [hx]), edge_start hx, edge_start hx]
    exact start x.dataInput
  | false =>
    by_cases hs : a.state = .accumulating
    · have hs' := same_state.trans hs
      obtain hc | hc : a.counter.val < cfg.k - 1 ∨ a.counter.val = cfg.k - 1 := by omega
      · rw [edge_accum hx hs hc, edgeInPlace_accum hx hs' (same_counter ▸ hc)]
        exact sim.accum hs hc
      · rw [edge_present hx hs hc, edgeInPlace_of_not_accum (by rw [same_counter]; omega),
          edge_present hx hs' (same_counter ▸ hc)]
        exact sim.present hs hc
    · have hs' : b.state ≠ .accumulating := same_state ▸ hs
      rw [edge_hold hx hs, edgeInPlace_of_not_accum (by simp [hs']), edge_hold hx hs']
      exact sim.hold hs

theorem steps (sim : InPlaceSim cfg a b) (xs : List (Stimulus cfg.k)) :
    InPlaceSim cfg (edges cfg a xs) (edgesInPlace cfg b xs) := by
  induction xs generalizing a b with
  | nil => exact sim
  | cons x xs ih => exact ih (sim.step x)

end InPlaceSim

/-- Settles O41: the in-place loop completes every column it passes, and the simulation, which holds at reset, keeps every
register but the bank equal. -/
theorem inPlaceReadingShowsTheSamePorts : Obligations.InPlaceReadingShowsTheSamePorts := by
  refine ⟨fun cfg acc m j one_le inside => column_accNextInPlace acc _ one_le inside, fun cfg xs => ?_⟩
  obtain ⟨agree, -, -⟩ := (InPlaceSim.reset cfg).steps xs
  rw [← agree]
  exact ⟨rfl, rfl, rfl, rfl, rfl, rfl⟩

end Sys2Proof.Machine
end

-- ==== Construction and read_output (43_port_interface.md R128, R134, R135; 60_exceptions.md R142 to R144) ====
section
/-! PROOFS. What construction answers in each case of R150's order, and what `read_output` can return. -/

namespace Sys2Proof.Machine

/-! ### The search for a row that is too wide -/

/-- R142: the row found is the least one that does not fit. -/
theorem firstRowTooWide_eq_some {n : Nat} {rows : List Nat} {r : Nat} (hr : r < rows.length) (wide : 2 ^ n ≤ rows[r])
    (least : ∀ (q : Nat) (hq : q < r), rows[q] < 2 ^ n) : firstRowTooWide n rows = some r := by
  rw [firstRowTooWide, List.findIdx?_eq_some_iff_getElem]
  exact ⟨hr, decide_eq_true wide, fun q hq => by simpa using least q hq⟩

theorem firstRowTooWide_eq_none {n : Nat} {rows : List Nat} (fits : ∀ g ∈ rows, g < 2 ^ n) :
    firstRowTooWide n rows = none := by
  rw [firstRowTooWide, List.findIdx?_eq_none_iff]
  simpa using fits

/-! ### Construction, one equation per answer -/

section Construct

variable {n : Nat} {rows : List Nat} (hasResetOp : Bool)

theorem construct_of_one_row (one : rows.length = 1) : construct n rows hasResetOp = .refused .singleRowMatrix := by
  rw [construct, dif_neg (by omega), dif_pos one]

theorem construct_of_zero_width (two_le : 2 ≤ rows.length) :
    construct 0 rows hasResetOp = .refused .zeroWidthCodeword := by
  rw [construct, dif_neg (by omega), dif_neg (by omega), dif_pos rfl]

theorem construct_of_wide {r : Nat} (two_le : 2 ≤ rows.length) (one_le : 1 ≤ n)
    (wide : firstRowTooWide n rows = some r) : construct n rows hasResetOp = .refused (.rowTooWide r) := by
  rw [construct, dif_neg (by omega), dif_neg (by omega), dif_neg (by omega)]
  split
  next found => rw [Option.some.inj (found.symm.trans wide)]
  next found => cases found.symm.trans wide

theorem construct_of_fits (two_le : 2 ≤ rows.length) (one_le : 1 ≤ n) (fits : ∀ g ∈ rows, g < 2 ^ n) :
    construct n rows hasResetOp = .next (State.resetOf (configOfRows n rows hasResetOp two_le one_le fits)) := by
  rw [construct, dif_neg (by omega), dif_neg (by omega), dif_neg (by omega)]
  split
  next found => cases found.symm.trans (firstRowTooWide_eq_none fits)
  next => rfl

/-- R135, U1: an accepted row is held as given. -/
theorem column_configOfRows (two_le : 2 ≤ rows.length) (one_le : 1 ≤ n) (fits : ∀ g ∈ rows, g < 2 ^ n)
    {r : Nat} (hr : r < rows.length) :
    (column (configOfRows n rows hasResetOp two_le one_le fits).rows r).toNat = rows[r] := by
  rw [configOfRows, column_ofFn _ hr, BitVec.toNat_ofNatLT]
  rfl

end Construct

/-- Settles O43, by the equation of `construct` for each case in the order of R150. -/
theorem constructionChecksItsParameters : Obligations.ConstructionChecksItsParameters := by
  intro n rows resetOp
  refine ⟨construct_of_one_row resetOp, ?_, ?_, ?_⟩
  · rintro two_le rfl
    exact construct_of_zero_width resetOp two_le
  · intro r hr two_le one_le wide least
    exact construct_of_wide resetOp two_le one_le (firstRowTooWide_eq_some hr wide least)
  · intro two_le one_le fits
    exact ⟨_, construct_of_fits resetOp two_le one_le fits, rfl, rfl, rfl,
      fun _ => column_configOfRows resetOp two_le one_le fits⟩

/-! ### `read_output` -/

/-- R32, R171: outside Presenting both output registers are 0. -/
theorem RegsInv.outputs_zero {cfg : Config} {r : Regs cfg.k cfg.n} (inv : RegsInv cfg r)
    (not_presenting : r.state ≠ .presenting) : r.output = 0 ∧ r.done = false := by
  cases hs : r.state with
  | idle =>
    rw [inv.idle hs]
    exact ⟨rfl, rfl⟩
  | accumulating =>
    obtain ⟨done_false, output_zero, -⟩ := inv.accumulating hs
    exact ⟨output_zero, done_false⟩
  | presenting => exact absurd hs not_presenting

/-- Settles O45: under the invariant the output registers follow `state`, and the inputs are no part of what
`read_output` reads. -/
theorem readOutputShowsZeroOrTheCodeword : Obligations.ReadOutputShowsZeroOrTheCodeword := by
  refine fun s inv => ⟨fun not_presenting => ?_, fun presenting => ?_, fun _ => ⟨rfl, rfl⟩⟩
  · obtain ⟨output_zero, done_false⟩ := inv.outputs_zero not_presenting
    rw [readOutput, output_zero, done_false]
  · obtain ⟨done_true, -, -, codeword, -⟩ := inv.presenting presenting
    rw [readOutput, codeword, done_true]

end Sys2Proof.Machine
end

-- ==== Faults, pre-emption and the boundary (60_exceptions.md R140, R141, R145, R151) ====
section
/-! PROOFS. That every run of edges answers, what a start edge leaves of the encode it pre-empts, and the refusals of
construction and of `assert_start`. -/

namespace Sys2Proof.Machine

/-! ### No edge fails (R140, D20) -/

theorem safeRun_zero (s : State) : SafeRun 0 s := ⟨s, run_zero s⟩

theorem safeRun_succ {s t : State} {count : Nat} (first : step s = .next t) (rest : SafeRun count t) :
    SafeRun (count + 1) s := by
  rwa [SafeRun, run_succ first]

/-- Settles O11, by induction on the number of edges: `step_eq_edge` answers the first one from every state, and the rest
run from the state it leaves. -/
theorem noEdgeEverFails : Obligations.NoEdgeEverFails := by
  intro count
  induction count with
  | zero => exact safeRun_zero
  | succ count ih => exact fun s => safeRun_succ (step_eq_edge s) (ih _)

/-! ### Pre-emption (R151) -/

/-- After a start edge the run goes on from START's registers, in which nothing of the earlier registers `r` is left. -/
theorem run_succ_start (cfg : Config) (r : Regs cfg.k cfg.n) (m : BitVec cfg.k) (xs : List (Stimulus cfg.k))
    (count : Nat) : run (count + 1) ⟨cfg, r, ⟨true, m⟩ :: xs⟩ = run count ⟨cfg, beginEncode cfg m, xs⟩ := by
  rw [run_succ (step_cons cfg r _ xs), edge_start rfl]

/-- Settles O37: both runs go on from the same registers, START's. -/
theorem preemptionForgetsTheEncodeInFlight : Obligations.PreemptionForgetsTheEncodeInFlight := by
  intro cfg r r' m xs count
  rw [run_succ_start, run_succ_start]

/-! ### Construction with no rows (R141) -/

theorem construct_of_no_rows {n : Nat} {rows : List Nat} (hasResetOp : Bool) (no_rows : rows.length = 0) :
    construct n rows hasResetOp = .refused .emptyMatrix := dif_pos no_rows

/-- Settles O42: the first check of R150 refuses, before the width is looked at. -/
theorem emptyMatrixIsRefused : Obligations.EmptyMatrixIsRefused := fun _ resetOp => construct_of_no_rows resetOp rfl

/-! ### `assert_start` (R126, R145, D11) -/

/-- With nothing pending the wires carry a tick (D11). -/
theorem wires_of_no_stimuli {s : State} (nothing_pending : s.stimuli = []) : s.wires = tickStimulus := by
  rw [State.wires, nothing_pending]
  rfl

/-- R126 corner case a: the call sets the same inputs whatever inputs `y` were set before it. -/
theorem assertStart_setInputs_of_fits (s : State) (y : Stimulus s.cfg.k) {m : Nat} (fits : m < 2 ^ s.cfg.k) :
    assertStart (s.setInputs y) m = .next (s.setInputs ⟨true, BitVec.ofNatLT m fits⟩) :=
  assertStart_of_fits (s.setInputs y) fits

/-- Settles O44: the inputs are `start = 1` and the message held exactly; one edge consumes them, and then the wires
carry a tick. -/
theorem assertStartDrivesTheNextEdgeOnly : Obligations.AssertStartDrivesTheNextEdgeOnly := by
  refine fun s m => ⟨fun fits => ?_, assertStart_of_wide s⟩
  refine ⟨⟨true, BitVec.ofNatLT m fits⟩, rfl, BitVec.toNat_ofNatLT m fits, assertStart_of_fits s fits,
    setInputs_wires s _, fun y => assertStart_setInputs_of_fits s y fits, fun nothing_further => ?_⟩
  rw [wires_of_no_stimuli (by simpa using nothing_further)]
  rfl

end Sys2Proof.Machine
end

-- ==== Reset and hazards (70_reset_and_hazards.md R166 to R181) ====
section
/-! PROOFS. The registers at each edge after a start edge, what every run from reset can hold, edges without a start
outside Accumulating, the edges next to a start edge, `WAITDONE`, and the reset operation. -/

namespace Sys2Proof.Machine

/-! ### The registers `d` edges after a start edge (R88, R90) -/

/-- Every register `d` edges after a start edge with message `m`, when none of the `d` edges is a start edge: before
edge `k` the pipeline fills, and from edge `k` on the codeword is presented. -/
structure AfterStart (cfg : Config) (m : BitVec cfg.k) (d : Nat) (r : Regs cfg.k cfg.n) : Prop where
  message : r.latchedInput = m
  window : d < cfg.k → r.state = .accumulating ∧ r.counter.val = d ∧ r.acc = pipe cfg m d ∧ r.output = 0 ∧
    r.done = false ∧ r.startPrev = decide (d = 0)
  presented : cfg.k ≤ d → r.state = .presenting ∧ r.counter.val = cfg.k - 1 ∧ r.acc = pipe cfg m (cfg.k - 1) ∧
    r.output = encodeMessage cfg m ∧ r.done = true ∧ r.startPrev = false

namespace AfterStart

variable {cfg : Config} {m : BitVec cfg.k} {d : Nat} {r : Regs cfg.k cfg.n}

theorem start (cfg : Config) (m : BitVec cfg.k) : AfterStart cfg m 0 (beginEncode cfg m) where
  message := rfl
  window _ := ⟨rfl, rfl, (pipe_zero cfg m).symm, rfl, rfl, rfl⟩
  presented k_le := by
    have two_le := cfg.two_le_k
    omega

/-- One edge without a start is ACCUM before the last counter value, PRESENT at it, and HOLD once the codeword is
presented. -/
theorem tick (after : AfterStart cfg m d r) {x : Stimulus cfg.k} (hx : x.start = false) :
    AfterStart cfg m (d + 1) (edge cfg r x) := by
  obtain inside | last | past : d + 1 < cfg.k ∨ d + 1 = cfg.k ∨ cfg.k ≤ d := by omega
  · obtain ⟨hs, hc, bank, output_zero, done_false, -⟩ := after.window (by omega)
    have below_last : r.counter.val < cfg.k - 1 := by omega
    rw [edge_accum hx hs below_last]
    refine ⟨after.message, fun _ => ⟨hs, ?_, ?_, output_zero, done_false, by simp⟩, fun k_le => by omega⟩
    · rw [accumulate_counter, nextCounter_val _ below_last, hc]
    · rw [accumulate_acc, bank, after.message, accNext_pipe]
  · obtain ⟨hs, hc, bank, -⟩ := after.window (by omega)
    obtain rfl : d = cfg.k - 1 := by omega
    rw [edge_present hx hs hc]
    refine ⟨after.message, fun lt_k => by omega, fun _ => ⟨rfl, hc, bank, ?_, rfl, rfl⟩⟩
    rw [latchCodeword_output, bank, column_pipe_last]
  · obtain ⟨hs, hc, bank, codeword, done_true, -⟩ := after.presented past
    rw [edge_hold hx (by simp [hs])]
    exact ⟨after.message, fun lt_k => by omega, fun _ => ⟨hs, hc, bank, codeword, done_true, rfl⟩⟩

theorem ticks (after : AfterStart cfg m d r) {xs : List (Stimulus cfg.k)} (no_start : NoStart xs) :
    AfterStart cfg m (d + xs.length) (edges cfg r xs) := by
  induction xs generalizing d r with
  | nil => exact after
  | cons x xs ih =>
    obtain ⟨hx, rest_no_start⟩ := List.forall_mem_cons.mp no_start
    rw [edges_cons, List.length_cons, Nat.add_comm xs.length, ← Nat.add_assoc]
    exact ih (after.tick hx) rest_no_start

/-- What ran before the start edge does not matter. -/
theorem of_append (cfg : Config) (r : Regs cfg.k cfg.n) (earlier : List (Stimulus cfg.k)) (m : BitVec cfg.k)
    {ticks : List (Stimulus cfg.k)} (no_start : NoStart ticks) :
    AfterStart cfg m ticks.length (edges cfg r (earlier ++ ⟨true, m⟩ :: ticks)) := by
  rw [edges_append, edges_cons, edge_start rfl, ← Nat.zero_add ticks.length]
  exact (start cfg m).ticks no_start

/-- R171: both outputs are 0 until the codeword is presented. -/
theorem outputs_zero (after : AfterStart cfg m d r) (inside : d < cfg.k) : r.done = false ∧ r.output = 0 := by
  obtain ⟨-, -, -, output_zero, done_false, -⟩ := after.window inside
  exact ⟨done_false, output_zero⟩

theorem outputs_presented (after : AfterStart cfg m d r) (k_le : cfg.k ≤ d) :
    r.done = true ∧ r.output = encodeMessage cfg m := by
  obtain ⟨-, -, -, codeword, done_true, -⟩ := after.presented k_le
  exact ⟨done_true, codeword⟩

/-- R177: `done` tells whether `k` edges have passed. -/
theorem done_iff (after : AfterStart cfg m d r) : r.done = true ↔ cfg.k ≤ d := by
  refine ⟨fun done_true => ?_, fun k_le => (after.outputs_presented k_le).1⟩
  by_contra inside
  simp [(after.outputs_zero (Nat.lt_of_not_le inside)).1] at done_true

end AfterStart

/-! ### Runs from any registers (R172, R177) -/

theorem run_all (cfg : Config) (r : Regs cfg.k cfg.n) (xs : List (Stimulus cfg.k)) :
    run xs.length ⟨cfg, r, xs⟩ = .next ⟨cfg, edges cfg r xs, []⟩ := by
  simpa using runIsTheEdgesInOrder cfg r xs []

theorem run_start_ticks (cfg : Config) (r : Regs cfg.k cfg.n) (m : BitVec cfg.k) {ticks : List (Stimulus cfg.k)}
    (no_start : NoStart ticks) (rest : List (Stimulus cfg.k)) : ∃ r' : Regs cfg.k cfg.n,
    run (ticks.length + 1) ⟨cfg, r, ⟨true, m⟩ :: (ticks ++ rest)⟩ = .next ⟨cfg, r', rest⟩ ∧
      AfterStart cfg m ticks.length r' :=
  ⟨_, runIsTheEdgesInOrder cfg r (⟨true, m⟩ :: ticks) rest, AfterStart.of_append cfg r [] m no_start⟩

/-- Settles O31: the trace of the encode says at which edges `done` is 1. -/
theorem doneRisesExactlyKEdgesAfterStart : Obligations.DoneRisesExactlyKEdgesAfterStart := by
  intro cfg r m ticks no_start
  obtain ⟨r', answers, after⟩ := run_start_ticks cfg r m no_start []
  rw [List.append_nil] at answers
  exact ⟨r', answers, after.done_iff⟩

/-- Settles O34: the edges up to the second start edge are still inside the first encode's window, and the edges from it
on are the second encode's own trace, whatever the first one left. -/
theorem earlyStartDiscardsTheEncodeInFlight : Obligations.EarlyStartDiscardsTheEncodeInFlight := by
  intro cfg r m m' ticks ticks' no_start no_start' early _
  refine ⟨fun d hd => ?_, ?_⟩
  · obtain ⟨r', answers, after⟩ := run_start_ticks cfg r m
      (ticks := ticks.take d) (fun x hx => no_start x (List.mem_of_mem_take hx)) (ticks.drop d ++ ⟨true, m'⟩ :: ticks')
    rw [← List.append_assoc, List.take_append_drop, List.length_take_of_le hd] at answers
    rw [List.length_take_of_le hd] at after
    exact ⟨r', _, answers, after.outputs_zero (by omega)⟩
  · have after := AfterStart.of_append cfg r (⟨true, m⟩ :: ticks) m' no_start'
    refine ⟨_, ?_, after.outputs_zero, fun full => after.outputs_presented full.ge⟩
    have edge_count : ticks.length + ticks'.length + 2 = (⟨true, m⟩ :: ticks ++ ⟨true, m'⟩ :: ticks').length := by
      simp only [List.cons_append, List.length_cons, List.length_append]
      omega
    rw [edge_count]
    exact run_all cfg r _

/-! ### Runs from reset (R179, R180) -/

theorem latestMessage_append_singleton {k : Nat} (xs : List (Stimulus k)) (x : Stimulus k) :
    latestMessage (xs ++ [x]) = if x.start then some x.dataInput else latestMessage xs := by
  induction xs with
  | nil => simp [latestMessage]
  | cons y ys ih =>
    rw [List.cons_append, latestMessage, ih, latestMessage]
    cases x.start with
    | true => rfl
    | false => rfl

/-- What any inputs make of the reset registers: nothing before the first start edge, and from then on the registers
some number of edges after the latest one. -/
theorem edges_reset_cases (cfg : Config) (xs : List (Stimulus cfg.k)) :
    (latestMessage xs = none ∧ edges cfg (Regs.reset cfg) xs = Regs.reset cfg) ∨
    ∃ m d, latestMessage xs = some m ∧ AfterStart cfg m d (edges cfg (Regs.reset cfg) xs) := by
  induction xs using List.reverseRecOn with
  | nil => exact .inl ⟨rfl, rfl⟩
  | append_singleton xs x ih =>
    rw [edges_append, edges_cons, edges_nil, latestMessage_append_singleton]
    cases hx : x.start with
    | true =>
      rw [edge_start hx]
      exact .inr ⟨_, 0, rfl, AfterStart.start cfg x.dataInput⟩
    | false =>
      obtain ⟨no_message, at_reset⟩ | ⟨m, d, latest, after⟩ := ih
      · rw [at_reset, edge_hold hx (by simp)]
        exact .inl ⟨no_message, rfl⟩
      · exact .inr ⟨m, d + 1, latest, after.tick hx⟩

/-- R179, R180: a run from reset shows either zeros or the completed codeword of the latest start edge's message. -/
theorem edges_reset_outputs (cfg : Config) (xs : List (Stimulus cfg.k)) :
    ((edges cfg (Regs.reset cfg) xs).done = false ∧ (edges cfg (Regs.reset cfg) xs).output = 0) ∨
    (latestMessage xs = some (edges cfg (Regs.reset cfg) xs).latchedInput ∧
      (edges cfg (Regs.reset cfg) xs).output = encodeMessage cfg (edges cfg (Regs.reset cfg) xs).latchedInput) := by
  obtain ⟨-, at_reset⟩ | ⟨m, d, latest, after⟩ := edges_reset_cases cfg xs
  · rw [at_reset]
    exact .inl ⟨rfl, rfl⟩
  · obtain inside | k_le := Nat.lt_or_ge d cfg.k
    · exact .inl (after.outputs_zero inside)
    · rw [after.message]
      exact .inr ⟨latest, (after.outputs_presented k_le).2⟩

/-- Settles O32: a raised `done` leaves only the presented codeword, which is the matrix product bit by bit. -/
theorem everyPresentedCodewordIsCorrect : Obligations.EveryPresentedCodewordIsCorrect := by
  refine fun cfg xs => ⟨_, run_all cfg _ xs, fun done_true => ?_⟩
  obtain ⟨done_false, -⟩ | ⟨latest, codeword⟩ := edges_reset_outputs cfg xs
  · simp [done_false] at done_true
  · refine ⟨latest, codeword, fun i _ => ?_⟩
    rw [codeword]
    exact getLsbD_encodeMessage cfg _ i

/-- Settles O33: a start edge is START in every state, and in a run from reset a non-zero output leaves only the
presented codeword. -/
theorem noPartialResultIsEverLatched : Obligations.NoPartialResultIsEverLatched := by
  refine ⟨fun s hw _ => ⟨_, step_start hw, rfl, rfl, rfl, (pipe_zero _ _).symm, rfl, rfl⟩,
    fun cfg xs => ⟨_, run_all cfg _ xs, fun shown => ?_⟩⟩
  obtain ⟨-, output_zero⟩ | ⟨latest, codeword⟩ := edges_reset_outputs cfg xs
  · exact absurd output_zero shown
  · exact ⟨_, latest, codeword⟩

/-! ### Edges without a start outside Accumulating (R169, R181) -/

/-- HOLD edges leave everything but `start_prev`, which the first of them clears. -/
theorem edges_of_hold {cfg : Config} {r : Regs cfg.k cfg.n} {ticks : List (Stimulus cfg.k)}
    (hs : r.state ≠ .accumulating) (no_start : NoStart ticks) :
    edges cfg r ticks = r ∨ edges cfg r ticks = holdRegs r := by
  induction ticks generalizing r with
  | nil => exact .inl rfl
  | cons x xs ih =>
    obtain ⟨hx, rest_no_start⟩ := List.forall_mem_cons.mp no_start
    rw [edges_cons, edge_hold hx hs]
    exact .inr ((ih (r := holdRegs r) hs rest_no_start).elim id id)

/-- Settles O19: every such edge is HOLD in Idle, and HOLD leaves the reset registers as they are, since `start_prev` is
0 there. -/
theorem edgesBeforeTheFirstStartDoNothing : Obligations.EdgesBeforeTheFirstStartDoNothing := by
  intro cfg ticks no_start
  have at_reset : edges cfg (Regs.reset cfg) ticks = Regs.reset cfg :=
    (edges_of_hold (by simp) no_start).elim id id
  refine ⟨?_, rfl⟩
  rw [run_all, at_reset, State.resetOf]

theorem RegsInv.done_iff {cfg : Config} {r : Regs cfg.k cfg.n} (inv : RegsInv cfg r) :
    r.done = true ↔ r.state = .presenting := by
  refine ⟨fun done_true => ?_, fun presenting => (inv.presenting presenting).1⟩
  by_contra not_presenting
  simp [(inv.outputs_zero not_presenting).2] at done_true

/-- Settles O18: outside Presenting the invariant makes both outputs 0, and in Presenting it raises `done`. -/
theorem doneExactlyInPresenting : Obligations.DoneExactlyInPresenting := by
  refine fun s inv => ⟨inv.done_iff, fun shown => ?_, fun done_false => ?_⟩
  · by_contra not_presenting
    exact shown (inv.outputs_zero not_presenting).1
  · have not_presenting : s.regs.state ≠ .presenting := by
      rw [ne_eq, ← inv.done_iff]
      simpa using done_false
    exact (inv.outputs_zero not_presenting).1

/-- Settles O40: `done = 1` means Presenting, where every such edge is HOLD. -/
theorem holdIsIdempotent : Obligations.HoldIsIdempotent := by
  intro cfg r ticks inv done_true no_start
  have not_accumulating : r.state ≠ .accumulating := by simp [inv.done_iff.mp done_true]
  refine ⟨_, run_all cfg r ticks, ?_⟩
  obtain unchanged | held := edges_of_hold not_accumulating no_start
  · rw [unchanged]
    exact ⟨rfl, rfl, done_true⟩
  · rw [held]
    exact ⟨rfl, rfl, done_true⟩

/-! ### The edges next to a start edge (R176, R178) -/

/-- Settles O38: only START leaves `start_prev = 1`, and it clears both outputs. -/
theorem postStartOutputsAreZero : Obligations.PostStartOutputsAreZero := by
  intro s t answers start_prev
  obtain ⟨-, rfl⟩ | ⟨-, -, -, rfl⟩ | ⟨-, -, -, rfl⟩ | ⟨-, -, rfl⟩ := step_cases answers
  case inl => exact ⟨rfl, rfl⟩ -- START
  case inr.inl | inr.inr.inl | inr.inr.inr => simp at start_prev -- ACCUM, PRESENT, HOLD clear `start_prev`

theorem edge_beginEncode_outputs_zero (cfg : Config) (m : BitVec cfg.k) (x : Stimulus cfg.k) :
    (edge cfg (beginEncode cfg m) x).done = false ∧ (edge cfg (beginEncode cfg m) x).output = 0 := by
  cases hx : x.start with
  | true =>
    rw [edge_start hx]
    exact ⟨rfl, rfl⟩
  | false => exact ((AfterStart.start cfg m).tick hx).outputs_zero cfg.two_le_k

/-- Settles O39: the second edge is either START again or the first edge of the encode, which is short of the window's
end since `2 <= k`. -/
theorem edgeAfterStartShowsZero : Obligations.EdgeAfterStartShowsZero := by
  intro s t u hw first second
  cases (step_start hw).symm.trans first
  cases (step_eq_edge _).symm.trans second
  exact edge_beginEncode_outputs_zero s.cfg _ _

/-! ### `WAITDONE` (30_encoding.md R74, R173) -/

theorem waitDone_of_done {s : State} (done_true : s.regs.done = true) (fuel : Nat) : waitDone fuel s = some s := by
  cases fuel with
  | zero => simp [waitDone, done_true]
  | succ fuel => simp [waitDone, done_true]

theorem waitDone_of_tick {s t : State} (done_false : s.regs.done = false)
    (answers : step (s.setInputs tickStimulus) = .next t) (fuel : Nat) : waitDone (fuel + 1) s = waitDone fuel t := by
  simp [waitDone, done_false, edgeWith, answers]

/-- Each tick of an encode in flight brings `counter` one nearer to `k-1`, where the next tick is PRESENT. -/
theorem waitDone_of_accumulating (fuel : Nat) {s : State} (hs : s.regs.state = .accumulating)
    (enough : s.cfg.k ≤ s.regs.counter.val + fuel) : ∃ t, waitDone fuel s = some t ∧ t.regs.done = true := by
  induction fuel generalizing s with
  | zero =>
    have in_range := s.regs.counter.isLt
    omega
  | succ fuel ih =>
    cases hd : s.regs.done with
    | true => exact ⟨s, waitDone_of_done hd _, hd⟩
    | false =>
      obtain hc | hc : s.regs.counter.val < s.cfg.k - 1 ∨ s.regs.counter.val = s.cfg.k - 1 := by omega
      · rw [waitDone_of_tick hd (step_accum rfl hs hc)]
        have counted := nextCounter_val s.regs.counter hc
        refine ih hs ?_
        show s.cfg.k ≤ (nextCounter s.regs.counter).val + fuel
        omega
      · rw [waitDone_of_tick hd (step_present rfl hs hc)]
        exact ⟨_, waitDone_of_done rfl _, rfl⟩

/-- A tick in Idle is HOLD, which raises no `done`. -/
theorem waitDone_of_idle (fuel : Nat) {s : State} (hs : s.regs.state = .idle) (done_false : s.regs.done = false) :
    waitDone fuel s = none := by
  induction fuel generalizing s with
  | zero => simp [waitDone, done_false]
  | succ fuel ih =>
    rw [waitDone_of_tick done_false (step_hold rfl (by simp [hs]))]
    exact ih hs done_false

/-- Settles O48: fuel `k` is enough for any counter value, and in Idle no fuel is. -/
theorem waitDoneEndsDuringAnEncodeAndNeverInIdle : Obligations.WaitDoneEndsDuringAnEncodeAndNeverInIdle :=
  ⟨fun s hs => waitDone_of_accumulating s.cfg.k hs (Nat.le_add_left _ _), fun _ fuel => waitDone_of_idle fuel⟩

/-! ### The reset operation (R166, D9) -/

theorem resetOperation_of_present {s : State} (has : s.cfg.hasResetOp = true) :
    resetOperation s = .next (s.withRegs (Regs.reset s.cfg)) := if_pos has

theorem resetOperation_of_absent {s : State} (has_not : s.cfg.hasResetOp = false) :
    resetOperation s = .refused .noResetOperation := if_neg (by simp [has_not])

/-- Settles O46, by the two values of the option. -/
theorem resetOperationYieldsTheResetState : Obligations.ResetOperationYieldsTheResetState := fun _ =>
  ⟨resetOperation_of_present, resetOperation_of_absent⟩

end Sys2Proof.Machine
end

-- ==== The register invariant (10_state.md R31, R32; 70_reset_and_hazards.md R165) ====
section
/-! PROOFS. The registers after reset, and the relations between the registers at reset and over one edge, one lemma per
operation of R80. -/

namespace Sys2Proof.Machine

namespace RegsInv

variable {cfg : Config} {r : Regs cfg.k cfg.n}

theorem reset (cfg : Config) : RegsInv cfg (Regs.reset cfg) where
  entryZero := column_zeroBank 0
  idle _ := rfl
  accumulating hs := by simp at hs
  presenting hs := by simp at hs
  startPrev := by simp

theorem start (m : BitVec cfg.k) : RegsInv cfg (beginEncode cfg m) where
  entryZero := column_zeroBank 0
  idle hs := by simp at hs
  accumulating _ := ⟨rfl, rfl, (pipe_zero cfg m).symm⟩
  presenting hs := by simp at hs
  startPrev := by simp

/-- ACCUM: the bank follows `counter` along the pipeline, and `counter` leaves 0 as `start_prev` falls. -/
theorem accum (inv : RegsInv cfg r) (hs : r.state = .accumulating) (hc : r.counter.val < cfg.k - 1) :
    RegsInv cfg (accumulate cfg r) := by
  obtain ⟨done_false, output_zero, bank⟩ := inv.accumulating hs
  have counted : (accumulate cfg r).counter.val = r.counter.val + 1 := nextCounter_val _ hc
  refine ⟨?_, fun idle => ?_, fun _ => ⟨done_false, output_zero, ?_⟩, fun presenting => ?_, ?_⟩
  · rw [accumulate_acc, column_accNext_zero, inv.entryZero]
  · cases hs.symm.trans idle
  · rw [accumulate_acc, bank, accNext_pipe, counted, accumulate_latchedInput]
  · cases hs.symm.trans presenting
  · simp [nextCounter_val _ hc]

/-- PRESENT: at `counter = k-1` every column of the pipeline is complete, the last one being the codeword. -/
theorem present (inv : RegsInv cfg r) (hs : r.state = .accumulating) (hc : r.counter.val = cfg.k - 1) :
    RegsInv cfg (latchCodeword r) := by
  obtain ⟨-, -, bank⟩ := inv.accumulating hs
  rw [hc] at bank
  refine ⟨inv.entryZero, by simp, by simp, fun _ => ⟨rfl, hc, rfl, ?_, fun j one_le inside => ?_⟩, by simp⟩
  · rw [latchCodeword_output, bank, column_pipe_last, latchCodeword_latchedInput]
  · rw [latchCodeword_acc, bank, column_pipe cfg _ _ inside, pipeColumn_complete _ one_le (by omega),
      latchCodeword_latchedInput]

/-- HOLD: `start_prev` is the only register written, and it is 0 at reset too. -/
theorem hold (inv : RegsInv cfg r) (hs : r.state ≠ .accumulating) : RegsInv cfg (holdRegs r) where
  entryZero := inv.entryZero
  idle idle := by
    rw [inv.idle idle]
    rfl
  accumulating accumulating := absurd accumulating hs
  presenting := inv.presenting
  startPrev := by simp [hs]

end RegsInv

/-- Settles O17, by the four operations of an edge: each leaves registers that meet the invariant. -/
theorem registerRelationsAreKeptByEveryEdge : Obligations.RegisterRelationsAreKeptByEveryEdge := by
  intro s t inv answers
  obtain ⟨-, rfl⟩ | ⟨-, hs, hc, rfl⟩ | ⟨-, hs, hc, rfl⟩ | ⟨-, hs, rfl⟩ := step_cases answers
  · exact RegsInv.start s.wires.dataInput
  · exact RegsInv.accum inv hs hc
  · exact RegsInv.present inv hs hc
  · exact RegsInv.hold inv hs

/-- Settles O16: the reset registers of every configuration meet the invariant, those of `State.reset` among them. -/
theorem registerRelationsHoldAtReset : Obligations.RegisterRelationsHoldAtReset :=
  ⟨RegsInv.reset, RegsInv.reset Config.sourceExample⟩

/-- Settles O15: every register is the one `Regs.reset` writes, the bank being the zero bank. -/
theorem resetLeavesEveryRegisterZero : Obligations.ResetLeavesEveryRegisterZero := fun _ =>
  ⟨rfl, rfl, rfl, accEntry_zeroBank _ _, rfl, rfl, rfl, rfl, rfl⟩

/-- Settles O14: START, ACCUM and PRESENT leave a state other than Idle, and HOLD leaves the state it found. -/
theorem idleIsNeverReentered : Obligations.IdleIsNeverReentered := by
  intro s t answers idle
  obtain ⟨-, rfl⟩ | ⟨-, -, -, rfl⟩ | ⟨-, -, -, rfl⟩ | ⟨-, -, rfl⟩ := step_cases answers
  case inl | inr.inr.inl => simp at idle -- START, PRESENT
  case inr.inl | inr.inr.inr => exact idle -- ACCUM, HOLD

end Sys2Proof.Machine
end

-- ==== Lanes, the ends of the pipeline, and linearity (42_accumulator.md R114, R115, R118, R119) ====
section
/-! PROOFS. The recurrence bit position by bit position, the pipeline at the two ends of the window, and `Encode` as a
linear map over GF(2). -/

namespace Sys2Proof.Machine

variable {n : Nat}

/-! ### Bit positions (R118) -/

theorem accEntry_of_le {k : Nat} (v : Vector (BitVec n) k) (i : Nat) {j : Nat} (outside : k ≤ j) :
    accEntry v i j = false := by
  rw [accEntry, column_of_le v outside]
  exact BitVec.getLsbD_zero

/-- Settles O23, by the kinds of column: each reads bit position `i` of the bank and of the rows only. -/
theorem bitPositionsAreIndependentLanes : Obligations.BitPositionsAreIndependentLanes := by
  intro n k acc acc' w w' i same_bank same_rows j
  obtain inside | outside := Nat.lt_or_ge j k
  · obtain rfl | rfl | two_le : j = 0 ∨ j = 1 ∨ 2 ≤ j := by omega
    · rw [accEntry_accNext_zero, accEntry_accNext_zero, same_bank]
    · rw [accEntry_accNext_one _ _ i inside, accEntry_accNext_one _ _ i inside, same_rows, same_rows]
    · rw [accEntry_accNext _ _ i two_le inside, accEntry_accNext _ _ i two_le inside, same_bank, same_rows]
  · rw [accEntry_of_le _ i outside, accEntry_of_le _ i outside]

/-! ### The ends of the window (R114, R115) -/

/-- From `t = k-1` on every column is complete. -/
theorem pipe_of_window_end (cfg : Config) (m : BitVec cfg.k) {t : Nat} (ended : cfg.k - 1 ≤ t) :
    pipe cfg m t = pipe cfg m (cfg.k - 1) := by
  apply bank_ext
  intro j inside
  rw [column_pipe cfg m t inside, column_pipe cfg m _ inside]
  obtain rfl | one_le := Nat.eq_zero_or_pos j
  · rw [pipeColumn_entry_zero, pipeColumn_entry_zero]
  · rw [pipeColumn_complete _ one_le (by omega), pipeColumn_complete _ one_le (by omega)]

/-- Settles O24: the zero bank of START, the recurrence column by column, and the completed columns. -/
theorem pipelineAdvancesOneEntryPerEdge : Obligations.PipelineAdvancesOneEntryPerEdge := fun cfg m =>
  ⟨pipe_zero cfg m, accNext_pipe cfg m, fun _ => pipe_of_window_end cfg m⟩

/-- One edge before the end of the window the last column sums the rows from row 2 on. -/
theorem column_pipe_before_last (cfg : Config) (m : BitVec cfg.k) (three_le : 3 ≤ cfg.k) :
    column (pipe cfg m (cfg.k - 2)) (cfg.k - 1) = xorRange (column (workingRows cfg m)) 2 (cfg.k - 1) := by
  have least_row : cfg.k - 1 - (cfg.k - 2) + 1 = 2 := by omega
  rw [column_pipe cfg m _ (by omega), pipeColumn_filling _ (by omega) (by omega), least_row]

/-- The rows 0 and 1 split off the codeword. -/
theorem encodeMessage_head (cfg : Config) (m : BitVec cfg.k) :
    encodeMessage cfg m = (column (workingRows cfg m) 0 ^^^ column (workingRows cfg m) 1) ^^^
      xorRange (column (workingRows cfg m)) 2 (cfg.k - 1) := by
  have two_le := cfg.two_le_k
  rw [encodeMessage, xorRange_head _ (by omega), xorRange_head _ (by omega), BitVec.xor_assoc]

/-- Settles O25: the complete last column, and the sum one edge earlier, to which the two missing rows are added. -/
theorem lastColumnCompletesInTheLastEdge : Obligations.LastColumnCompletesInTheLastEdge := by
  refine fun cfg m => ⟨column_pipe_last cfg m, fun three_le => ?_⟩
  rw [column_pipe_before_last cfg m three_le, encodeMessage_head, BitVec.xor_comm, ← BitVec.xor_assoc, BitVec.xor_self,
    BitVec.zero_xor]

/-! ### Linearity (R119) -/

theorem xorBelow_xor (f g : Nat → BitVec n) (c : Nat) :
    xorBelow (fun r => f r ^^^ g r) c = xorBelow f c ^^^ xorBelow g c := by
  induction c with
  | zero => simp
  | succ c ih =>
    rw [xorBelow_succ, xorBelow_succ, xorBelow_succ, ih]
    ac_rfl

theorem xorBelow_eq_zero {f : Nat → BitVec n} {c : Nat} (zero : ∀ r, r < c → f r = 0) : xorBelow f c = 0 := by
  induction c with
  | zero => rfl
  | succ c ih =>
    rw [xorBelow_succ, ih fun r hr => zero r (by omega), zero c (by omega)]
    exact BitVec.xor_self

/-- A sum with one term other than 0 is that term. -/
theorem xorBelow_eq_single {f : Nat → BitVec n} {c r : Nat} (inside : r < c)
    (others_zero : ∀ r', r' < c → r' ≠ r → f r' = 0) : xorBelow f c = f r := by
  induction c with
  | zero => omega
  | succ c ih =>
    rw [xorBelow_succ]
    obtain rfl | earlier := Nat.eq_or_lt_of_le (Nat.le_of_lt_succ inside)
    · rw [xorBelow_eq_zero fun r' hr' => others_zero r' (by omega) (by omega)]
      exact BitVec.zero_xor
    · rw [ih earlier fun r' hr' => others_zero r' (by omega), others_zero c (by omega) (by omega)]
      exact BitVec.xor_zero

/-- A working row is linear in the message, since it reads one bit of it. -/
theorem column_workingRows_xor (cfg : Config) (a b : BitVec cfg.k) (r : Nat) :
    column (workingRows cfg (a ^^^ b)) r = column (workingRows cfg a) r ^^^ column (workingRows cfg b) r := by
  simp only [column_workingRows_eq_ite, BitVec.getLsbD_xor]
  cases a.getLsbD (cfg.k - 1 - r) with
  | false => simp
  | true =>
    cases b.getLsbD (cfg.k - 1 - r) with
    | false => simp
    | true => simp

theorem encodeMessage_xor (cfg : Config) (a b : BitVec cfg.k) :
    encodeMessage cfg (a ^^^ b) = encodeMessage cfg a ^^^ encodeMessage cfg b := by
  rw [encodeMessage_eq_xorBelow, encodeMessage_eq_xorBelow, encodeMessage_eq_xorBelow, ← xorBelow_xor]
  exact xorBelow_congr fun r _ => column_workingRows_xor cfg a b r

theorem encodeMessage_zero (cfg : Config) : encodeMessage cfg 0 = 0 := by
  rw [encodeMessage_eq_xorBelow]
  exact xorBelow_eq_zero fun r _ => column_workingRows_zero cfg r

theorem encodeMessage_twoPow (cfg : Config) {r : Nat} (inside : r < cfg.k) :
    encodeMessage cfg (BitVec.twoPow cfg.k (cfg.k - 1 - r)) = column cfg.rows r := by
  rw [encodeMessage_eq_xorBelow, xorBelow_eq_single inside, column_workingRows_twoPow cfg inside inside, if_pos rfl]
  intro r' inside' other
  rw [column_workingRows_twoPow cfg inside inside', if_neg other]

/-- Settles O27: the sum over the rows is linear since each row is, and one message bit leaves one row. -/
theorem encodeIsLinear : Obligations.EncodeIsLinear := fun cfg =>
  ⟨encodeMessage_xor cfg, encodeMessage_zero cfg, fun _ => encodeMessage_twoPow cfg⟩

end Sys2Proof.Machine
end

-- ==== The course of one encode (40_controller.md R88, R90) and ENCODE (30_encoding.md R74) ====
section
/-! PROOFS. The whole trace of an encode that no start edge interrupts, and the script's `ENCODE`, which is such a trace
read at its end. -/

namespace Sys2Proof.Machine

/-- Settles O30: the trace is `AfterStart`, whose window ends at edge `k-1`. -/
theorem traceOfAnUninterruptedEncode : Obligations.TraceOfAnUninterruptedEncode := by
  intro cfg r m ticks rest no_start
  have two_le := cfg.two_le_k
  obtain ⟨r', answers, after⟩ := run_start_ticks cfg r m no_start rest
  exact ⟨r', answers, after.message, fun inside => after.window (by omega), after.presented⟩

/-! ### The script's statements -/

theorem edgeWith_mk (cfg : Config) (r : Regs cfg.k cfg.n) (pending : List (Stimulus cfg.k)) (x : Stimulus cfg.k) :
    edgeWith ⟨cfg, r, pending⟩ x = .next ⟨cfg, edge cfg r x, pending.tail⟩ := step_cons cfg r x pending.tail

/-- `TICK c` (R73) is `c` edges without a start, whatever inputs were pending at them. -/
theorem tickTimes_eq_edges (cfg : Config) (r : Regs cfg.k cfg.n) (pending : List (Stimulus cfg.k)) (count : Nat) :
    tickTimes count ⟨cfg, r, pending⟩ =
      .next ⟨cfg, edges cfg r (List.replicate count tickStimulus), pending.drop count⟩ := by
  induction count generalizing r pending with
  | zero => rfl
  | succ count ih =>
    rw [tickTimes, edgeWith_mk, List.replicate_succ, edges_cons, ← List.drop_tail]
    exact ih _ _

/-- `START m` (R73) with a message that fits is a start edge with that message. -/
theorem startEdge_toNat (s : State) (m : BitVec s.cfg.k) :
    startEdge s m.toNat = .next ⟨s.cfg, beginEncode s.cfg m, s.stimuli.tail⟩ := by
  rw [startEdge, assertStart_of_fits s m.isLt, BitVec.ofNatLT_toNat]
  exact step_start rfl

theorem runStatement_start (s : State) (m : BitVec s.cfg.k) :
    runStatement s (.start m.toNat) = .ok ⟨s.cfg, beginEncode s.cfg m, s.stimuli.tail⟩ none := by
  rw [runStatement, startEdge_toNat, StatementResult.ofResult]

theorem runStatement_tick (cfg : Config) (r : Regs cfg.k cfg.n) (pending : List (Stimulus cfg.k)) (count : Nat) :
    runStatement ⟨cfg, r, pending⟩ (.tick count) =
      .ok ⟨cfg, edges cfg r (List.replicate count tickStimulus), pending.drop count⟩ none := by
  rw [runStatement, tickTimes_eq_edges, StatementResult.ofResult]

theorem runStatement_read (s : State) : runStatement s .read = .ok s (some (readPair s)) := rfl

theorem runStatements_cons {s t : State} {st : Statement} {read : Option (Nat × Bool)}
    (first : runStatement s st = .ok t read) (reads : List (Nat × Bool)) (rest : List Statement) :
    runStatements s reads (st :: rest) = runStatements t (reads ++ read.toList) rest := by
  rw [runStatements, first]

/-! ### ENCODE -/

theorem noStart_replicate_tick {k : Nat} (count : Nat) : NoStart (List.replicate count (tickStimulus (k := k))) := by
  intro x mem
  rw [List.eq_of_mem_replicate mem]
  rfl

/-- The registers after `START m` and `TICK k`. -/
theorem afterStart_replicate_tick (cfg : Config) (m : BitVec cfg.k) (count : Nat) :
    AfterStart cfg m count (edges cfg (beginEncode cfg m) (List.replicate count tickStimulus)) := by
  have after := (AfterStart.start cfg m).ticks (noStart_replicate_tick count)
  rwa [List.length_replicate, Nat.zero_add] at after

/-- Settles O47: the expansion is a start edge, `k` edges without a start, after which the codeword is presented, and
one `READ` of it. -/
theorem encodeScriptReadsTheCodeword : Obligations.EncodeScriptReadsTheCodeword := by
  intro s m
  obtain ⟨done_true, codeword⟩ := (afterStart_replicate_tick s.cfg m s.cfg.k).outputs_presented le_rfl
  rw [ScriptLine.expand, runStatements_cons (runStatement_start s m), runStatements_cons (runStatement_tick _ _ _ _),
    runStatements_cons (runStatement_read _), readPair, readOutput, done_true, codeword]
  exact ⟨_, rfl⟩

end Sys2Proof.Machine
end

-- ==== Dispatch words and port words (30_encoding.md R60 to R69) ====
section
/-! PROOFS. The decoder and the encoder of dispatch words against each other and against the table, the operation a step
runs, and the layout of the port words. -/

namespace Sys2Proof

open Machine

/-! ### Dispatch words -/

/-- Each constructor's own lemma, gathered. -/
theorem encode_roundTrip (i : Instr) : Laws.RoundTrip.Statement i := by
  cases i with
  | start state term => exact Laws.RoundTrip.start state term
  | accum => exact Laws.RoundTrip.accum
  | present => exact Laws.RoundTrip.present
  | holdIdle term => exact Laws.RoundTrip.holdIdle term
  | holdPresenting term => exact Laws.RoundTrip.holdPresenting term
  | reservedState term => exact Laws.RoundTrip.reservedState term

/-- On a byte whose upper half is zero the decoder is the dispatch decoder on the lower half. -/
theorem decode_zero_append (w : DispatchWord) (rest : List Byte) :
    decode ((0#4 ++ w : BitVec 8) :: rest) = (decodeDispatch w).map fun i => (i, rest) := by
  have upper : (0#4 ++ w : BitVec 8).extractLsb' 4 4 = 0#4 := by
    revert w
    decide
  have lower : (0#4 ++ w : BitVec 8).extractLsb' 0 4 = w := by
    revert w
    decide
  rw [decode, if_pos upper, lower]

/-- Settles O49: the byte's lower half is the operation's dispatch word, which decodes to the operation. -/
theorem decodeInvertsEncode : Obligations.DecodeInvertsEncode := by
  intro i rest well_formed
  obtain ⟨decoded, -⟩ := encode_roundTrip i well_formed
  rw [encodeBytes, List.singleton_append, decode_zero_append, decoded]
  rfl

theorem stateOfCode_eq_none {c : BitVec 2} (undefined : stateOfCode c = none) : c = 0b11#2 := by
  revert c
  decide

/-- A dispatch word names a state or has state code 11 (R64). -/
theorem dispatchWord_cases (w : DispatchWord) :
    (∃ start st t, w = packDispatch start (stateCode st) t) ∨ ∃ start t, w = packDispatch start 0b11#2 t := by
  have fields := packDispatch_fields w
  cases named : stateOfCode (dispState w) with
  | some st =>
    rw [← stateCode_of_stateOfCode named] at fields
    exact .inl ⟨_, st, _, fields.symm⟩
  | none =>
    rw [stateOfCode_eq_none named] at fields
    exact .inr ⟨_, _, fields.symm⟩

theorem encode_selected (start : Bool) (st : EncoderState) (t : Bool) :
    encode (selected start st t) = packDispatch start (stateCode st) t := by
  cases start with
  | true => rfl
  | false =>
    cases st with
    | idle => rfl
    | accumulating => cases t <;> rfl
    | presenting => rfl

theorem decodeDispatch_reserved (t : Bool) : decodeDispatch (packDispatch false 0b11#2 t) = .ok (.reservedState t) := by
  cases t <;> rfl

theorem decodeDispatch_undefined (t : Bool) :
    decodeDispatch (packDispatch true 0b11#2 t) = .error .undefinedStateCode := by
  cases t <;> rfl

theorem firstRow_reserved (t : Bool) :
    (firstRow (packDispatch false 0b11#2 t)).map TableRow.mnemonic = some "reserved__state_code_11" := by
  cases t <;> decide

/-- Decoding loses no bit of a word, and agrees with the table's first matching row. -/
theorem encode_of_decodeDispatch {w : DispatchWord} {i : Instr} (decoded : decodeDispatch w = .ok i) :
    encode i = w ∧ (firstRow w).map TableRow.mnemonic = some i.mnemonic := by
  obtain ⟨start, st, t, rfl⟩ | ⟨start, t, rfl⟩ := dispatchWord_cases w
  · obtain rfl : selected start st t = i := Except.ok.inj ((decodeDispatch_pack start st t).symm.trans decoded)
    obtain ⟨-, row⟩ := encode_roundTrip _ (selected_wellFormed start st t)
    rw [encode_selected] at row
    exact ⟨encode_selected start st t, row⟩
  · cases start with
    | true => cases (decodeDispatch_undefined t).symm.trans decoded
    | false =>
      obtain rfl : .reservedState t = i := Except.ok.inj ((decodeDispatch_reserved t).symm.trans decoded)
      exact ⟨rfl, firstRow_reserved t⟩

/-- The decoder refuses `start = 1` with state code 11 and nothing else. -/
theorem decodeDispatch_error_iff (w : DispatchWord) :
    (∃ e, decodeDispatch w = .error e) ↔ w = 0b1110#4 ∨ w = 0b1111#4 := by
  constructor
  · rintro ⟨e, refused⟩
    obtain ⟨start, st, t, rfl⟩ | ⟨start, t, rfl⟩ := dispatchWord_cases w
    · cases (decodeDispatch_pack start st t).symm.trans refused
    · cases start with
      | true =>
        cases t with
        | false => exact .inl rfl
        | true => exact .inr rfl
      | false => cases (decodeDispatch_reserved t).symm.trans refused
  · rintro (rfl | rfl)
    · exact ⟨_, decodeDispatch_undefined false⟩
    · exact ⟨_, decodeDispatch_undefined true⟩

theorem opcodeTable_rows_disjoint :
    opcodeTable.Pairwise (fun a b => ∀ w : DispatchWord, ¬ (w &&& a.mask = a.pattern ∧ w &&& b.mask = b.pattern)) := by
  decide

/-- Settles O50: a word that names a state is the word of its selection, and of the words with state code 11 the decoder
reads those with `start = 0` as the reserved row and refuses the others. -/
theorem everyWordHasOneMeaning : Obligations.EveryWordHasOneMeaning :=
  ⟨fun _ _ => encode_of_decodeDispatch, decodeDispatch_error_iff, opcodeTable_rows_disjoint⟩

/-- Settles O51: each word is the packing of the fields it names, and decodes to the selection by them. -/
theorem dispatchWordsDecodeAsListed : Obligations.DispatchWordsDecodeAsListed :=
  ⟨decodeDispatch_pack true .idle false, decodeDispatch_pack true .idle true,
    decodeDispatch_pack true .accumulating false, decodeDispatch_pack true .accumulating true,
    decodeDispatch_pack true .presenting false, decodeDispatch_pack true .presenting true,
    decodeDispatch_pack false .accumulating false, decodeDispatch_pack false .accumulating true,
    decodeDispatch_pack false .idle false, decodeDispatch_pack false .idle true,
    decodeDispatch_pack false .presenting false, decodeDispatch_pack false .presenting true,
    decodeDispatch_reserved false, decodeDispatch_reserved true⟩

/-! ### The operation of a step -/

/-- Settles O5: `exec`'s own equation for the reserved row. -/
theorem reservedStateCodeIsRefused : Obligations.ReservedStateCodeIsRefused := exec_reservedState

theorem step_of_decoded {s : State} {i : Instr} (decoded : decodeDispatch s.dispatchWord = .ok i) :
    step s = afterEdge (exec i s) := by
  rw [step, decoded]

/-- Settles O6: the step is the decoded operation with `afterEdge` around it, which consumes the inputs of an answer. -/
theorem stepRunsTheDecodedOperation : Obligations.StepRunsTheDecodedOperation := by
  refine fun s i decoded _ => ⟨step_of_decoded decoded, fun t answers => ?_, rfl⟩
  rw [step_of_decoded decoded, answers, afterEdge_next]

/-! ### Port words (R61, R62) -/

section PortWords

variable {width : Nat}

theorem getLsbD_cons_width (b : Bool) (v : BitVec width) : (BitVec.cons b v).getLsbD width = b := by
  rw [BitVec.getLsbD_cons, if_pos rfl]

theorem getLsbD_cons_of_lt (b : Bool) (v : BitVec width) {i : Nat} (below : i < width) :
    (BitVec.cons b v).getLsbD i = v.getLsbD i := by
  rw [BitVec.getLsbD_cons, if_neg (by omega)]

theorem cons_getLsbD_setWidth (w : BitVec (width + 1)) : BitVec.cons (w.getLsbD width) (w.setWidth width) = w := by
  have top := BitVec.msb_eq_getLsbD_last w
  rw [Nat.add_sub_cancel] at top
  rw [← top, BitVec.cons_msb_setWidth]

theorem unpackStimulus_packStimulus (x : Stimulus width) : unpackStimulus (packStimulus x) = x := by
  rw [unpackStimulus, packStimulus, getLsbD_cons_width, BitVec.setWidth_cons]

theorem unpackResponse_packResponse (r : Response width) : unpackResponse (packResponse r) = r := by
  rw [unpackResponse, packResponse, getLsbD_cons_width, BitVec.setWidth_cons]

end PortWords

/-- Settles O52: both words are one bit put on top of the others, and taken off again. -/
theorem portWordsRoundTrip : Obligations.PortWordsRoundTrip :=
  ⟨fun _ x => ⟨getLsbD_cons_width _ _, fun _ => getLsbD_cons_of_lt _ _, unpackStimulus_packStimulus x⟩,
    fun _ => cons_getLsbD_setWidth,
    fun _ r => ⟨getLsbD_cons_width _ _, fun _ => getLsbD_cons_of_lt _ _, unpackResponse_packResponse r⟩,
    fun _ => cons_getLsbD_setWidth⟩

end Sys2Proof
end
